-- ==== Sys2Proof/Word.lean ====
section
/-! DEFINITION. The word types of the poder PNG front end: a byte is an unsigned integer 0 to 255 (00_scope.md R7),
the numeric fields of a record are 32 or 64 bits wide (20_memory.md R45). -/

namespace Sys2Proof

/-- One byte of any of the four spaces (20_memory.md R38). -/
abbrev Byte := BitVec 8

/-- A 32-bit field: LEN, TYPE, width, height (30_encoding.md R60, R62). -/
abbrev Word32 := BitVec 32

/-- The signature field MAGIC (30_encoding.md R59). -/
abbrev Word64 := BitVec 64

end Sys2Proof
end

