-- ==== Sys2Proof/Syntax.lean ====
section
/-! DEFINITION. The instructions of the block: its records (00_scope.md R2), one constructor per row of
spec/opcode_table.json. An instruction holds the record's opcode field and the operands decoded with it; payload, checksum
and row data are read from IN or FS when the instruction runs (40_stream_front.md R78, 43_defilter.md R100). -/

namespace Sys2Proof

/-- One record of the stream, one row, or one of the two steps no record encodes. -/
inductive Instr where
  /-- SIG: the signature record (30_encoding.md R59, 40_stream_front.md R77). -/
  | sig (magic : Word64)
  /-- IHDR: interpret the image header (41_chunk_ops.md R87). -/
  | ihdr (len : Word32)
  /-- IDAT: append the payload to CP (R88). -/
  | idat (len : Word32)
  /-- IEND: mark the end of the image (R89). -/
  | iend (len : Word32)
  /-- PLTE: refused, indexed colour (R90). -/
  | plte (len : Word32)
  /-- OTHER: any other TYPE, skipped by its length (R91). -/
  | other (len : Word32) (tag : Word32)
  /-- NONE, FTYPE 0 (43_defilter.md R105). -/
  | none
  /-- SUB, FTYPE 1 (R106). -/
  | sub
  /-- UP, FTYPE 2 (R107). -/
  | up
  /-- AVERAGE, FTYPE 3 (R108). -/
  | average
  /-- PAETH, FTYPE 4 (R109). -/
  | paeth
  /-- UNKNOWN, FTYPE 5 to 255 (R110). -/
  | unknown (ftype : Byte)
  /-- S_START: requested by a write of CTRL (40_stream_front.md R76). -/
  | sStart
  /-- S_INFLATE: selected by PHASE = INFLATE (42_inflate_adapter.md R93). -/
  | sInflate
  deriving DecidableEq, Repr

/-- The record formats (30_encoding.md R58), and the two steps that no record encodes. -/
inductive Format where
  | sig
  | chunk
  | row
  | unencoded
  deriving DecidableEq, Repr

/-- The format of an instruction's record: the table's column "format". -/
def Instr.format : Instr → Format
  | .sig _ => .sig
  | .ihdr _ => .chunk
  | .idat _ => .chunk
  | .iend _ => .chunk
  | .plte _ => .chunk
  | .other _ _ => .chunk
  | .none => .row
  | .sub => .row
  | .up => .row
  | .average => .row
  | .paeth => .row
  | .unknown _ => .row
  | .sStart => .unencoded
  | .sInflate => .unencoded

/-- The four constant tags as 32-bit patterns, the first byte in stream order most significant (30_encoding.md R68,
20_memory.md R46). -/
def Tag.ihdr : Word32 := 0x49484452#32

/-- "IDAT" (R68). -/
def Tag.idat : Word32 := 0x49444154#32

/-- "IEND" (R68). -/
def Tag.iend : Word32 := 0x49454E44#32

/-- "PLTE" (R68). -/
def Tag.plte : Word32 := 0x504C5445#32

end Sys2Proof
end

