-- ==== Sys2Proof/WellFormed.lean ====
section
/-! DEFINITION. Which terms of `Instr` stand for a record: OTHER's TYPE is none of the four tags (30_encoding.md R68) and
UNKNOWN's FTYPE is above 4 (R70). A record that is legal as an encoding but refused when it runs (a wrong signature, IHDR
with a length other than 13, R71) is well formed: the block decodes it and raises the error. -/

namespace Sys2Proof

/-- The instruction is what the opcode maps (30_encoding.md R68, R70) give for its own fields. -/
def Instr.wellFormed : Instr → Bool
  | .sig _ => true
  | .ihdr _ => true
  | .idat _ => true
  | .iend _ => true
  | .plte _ => true
  | .other _ tag => tag != Tag.ihdr && tag != Tag.idat && tag != Tag.iend && tag != Tag.plte
  | .none => true
  | .sub => true
  | .up => true
  | .average => true
  | .paeth => true
  | .unknown ftype => decide (4 < ftype.toNat)
  | .sStart => true
  | .sInflate => true

/-- `Instr.wellFormed` as a decidable proposition. -/
abbrev WellFormed (i : Instr) : Prop := i.wellFormed = true

end Sys2Proof
end

