-- ==== Sys2Proof/Decode.lean ====
section
/-! DEFINITION. Decoding: from the bytes of a record to an instruction, by format (30_encoding.md R58), total on any bytes
and rejecting by name; then the encoder, written from the same tables; then the reading of an opcode-table word. -/

namespace Sys2Proof

/-- `be32` (00_scope.md R8): the first byte in stream order is the most significant; as a number,
b[0]*2^24 + b[1]*2^16 + b[2]*2^8 + b[3] (Laws/Decode.lean, `be32_toNat`). -/
def be32 (b0 b1 b2 b3 : Byte) : Word32 := b0 ++ b1 ++ b2 ++ b3

/-- `be64` (00_scope.md R8), likewise. -/
def be64 (b0 b1 b2 b3 b4 b5 b6 b7 : Byte) : Word64 := b0 ++ b1 ++ b2 ++ b3 ++ b4 ++ b5 ++ b6 ++ b7

/-- The byte of `n` that stands `k` places above the least significant one. -/
def byteOf (n k : Nat) : Byte := BitVec.ofNat 8 (n / 2 ^ (8 * k))

/-- The four bytes of a 32-bit field in stream order (20_memory.md R45). -/
def bytes32 (w : Word32) : List Byte :=
  [byteOf w.toNat 3, byteOf w.toNat 2, byteOf w.toNat 1, byteOf w.toNat 0]

/-- The eight bytes of the signature field in stream order (20_memory.md R45). -/
def bytes64 (w : Word64) : List Byte :=
  [byteOf w.toNat 7, byteOf w.toNat 6, byteOf w.toNat 5, byteOf w.toNat 4,
   byteOf w.toNat 3, byteOf w.toNat 2, byteOf w.toNat 1, byteOf w.toNat 0]

/-- The only MAGIC that is accepted (30_encoding.md R59, 40_stream_front.md R77). -/
def sigMagic : Word64 := 0x89504E470D0A1A0A#64

/-- Why bytes are no record: too few of them, the only reason there is (30_encoding.md R71 to R73: no value of an opcode
field is illegal). -/
inductive Reject where
  /-- Fewer than 8 bytes where the signature is expected (40_stream_front.md R77). -/
  | shortSignature
  /-- Fewer than 4 bytes where LEN is expected (R79). -/
  | shortLength
  /-- LEN is there, fewer than 4 bytes where TYPE is expected (R80). -/
  | shortType
  /-- No byte where FTYPE is expected (43_defilter.md R102); it does not happen in a decode (42_inflate_adapter.md R99). -/
  | shortRow
  /-- S_START and S_INFLATE have no record (opcode table, format NONE). -/
  | notEncoded
  deriving DecidableEq, Repr

/-- The chunk opcode map (30_encoding.md R68): an exact match of all four TYPE bytes (R69), else OTHER. -/
def chunkInstr (len tag : Word32) : Instr :=
  if tag = Tag.ihdr then .ihdr len
  else if tag = Tag.idat then .idat len
  else if tag = Tag.iend then .iend len
  else if tag = Tag.plte then .plte len
  else .other len tag

/-- The row opcode map (30_encoding.md R70). -/
def rowInstr (ftype : Byte) : Instr :=
  if ftype = 0#8 then .none
  else if ftype = 1#8 then .sub
  else if ftype = 2#8 then .up
  else if ftype = 3#8 then .average
  else if ftype = 4#8 then .paeth
  else .unknown ftype

/-- Format SIG (30_encoding.md R59): 8 bytes, no opcode field. -/
def decodeSig : List Byte → Except Reject (Instr × List Byte)
  | b0 :: b1 :: b2 :: b3 :: b4 :: b5 :: b6 :: b7 :: rest => .ok (.sig (be64 b0 b1 b2 b3 b4 b5 b6 b7), rest)
  | _ => .error .shortSignature

/-- Format CHUNK (30_encoding.md R60): LEN and TYPE, the first 8 bytes; the payload follows. -/
def decodeChunk : List Byte → Except Reject (Instr × List Byte)
  | l0 :: l1 :: l2 :: l3 :: t0 :: t1 :: t2 :: t3 :: rest =>
    .ok (chunkInstr (be32 l0 l1 l2 l3) (be32 t0 t1 t2 t3), rest)
  | _ :: _ :: _ :: _ :: _ => .error .shortType
  | _ => .error .shortLength

/-- Format ROW (30_encoding.md R64): FTYPE, the first byte; the data bytes follow. -/
def decodeRow : List Byte → Except Reject (Instr × List Byte)
  | f :: rest => .ok (rowInstr f, rest)
  | [] => .error .shortRow

/-- The decoder: the instruction that stands at the front of the bytes, and the bytes after its decoded fields. -/
def decode : Format → List Byte → Except Reject (Instr × List Byte)
  | .sig, bytes => decodeSig bytes
  | .chunk, bytes => decodeChunk bytes
  | .row, bytes => decodeRow bytes
  | .unencoded, _ => .error .notEncoded

/-- The encoder, from the tables of 30_encoding.md (R59, R60, R68, R70): the opcode field and the fields decoded with it.
S_START and S_INFLATE have no bytes. -/
def encode : Instr → List Byte
  | .sig magic => bytes64 magic
  | .ihdr len => bytes32 len ++ [0x49#8, 0x48#8, 0x44#8, 0x52#8]
  | .idat len => bytes32 len ++ [0x49#8, 0x44#8, 0x41#8, 0x54#8]
  | .iend len => bytes32 len ++ [0x49#8, 0x45#8, 0x4E#8, 0x44#8]
  | .plte len => bytes32 len ++ [0x50#8, 0x4C#8, 0x54#8, 0x45#8]
  | .other len tag => bytes32 len ++ bytes32 tag
  | .none => [0x00#8]
  | .sub => [0x01#8]
  | .up => [0x02#8]
  | .average => [0x03#8]
  | .paeth => [0x04#8]
  | .unknown ftype => [ftype]
  | .sStart => []
  | .sInflate => []

/-- The bytes of an opcode-table word as the block stores its record: 64 bits are MAGIC; 32 bits are TYPE, after a LEN of
zero and before a checksum of zero; 8 bits are FTYPE. -/
def tableBytes (nbits w : Nat) : List Byte :=
  if nbits = 64 then bytes64 (BitVec.ofNat 64 w)
  else if nbits = 32 then [0#8, 0#8, 0#8, 0#8] ++ bytes32 (BitVec.ofNat 32 w) ++ [0#8, 0#8, 0#8, 0#8]
  else if nbits = 8 then [BitVec.ofNat 8 w]
  else []

/-- The format of an opcode-table word, by the number of bits the table gives the row. -/
def tableFormat (nbits : Nat) : Format :=
  if nbits = 64 then .sig else if nbits = 32 then .chunk else if nbits = 8 then .row else .unencoded

/-- The instruction the decoder reads from a row of spec/opcode_table.json. A row of no bits is a step that no record
encodes; of the two, S_START is the one the host can request (R76), and it is what is answered (log entry 10). -/
def decodeTableWord (nbits w : Nat) : Option Instr :=
  if nbits = 0 then some .sStart
  else match decode (tableFormat nbits) (tableBytes nbits w) with
    | .ok (i, _) => some i
    | .error _ => Option.none

end Sys2Proof
end

