-- ==== Sys2Proof/Config.lean ====
section
/-! DEFINITION. What the spec leaves to the environment: the inflate service (00_scope.md R6, 42_inflate_adapter.md R98)
and the bound N_MAX on a stream's length. The capacities CP_CAP and FS_CAP, parameters too (R6), stand in the state's
environment (Machine/State.lean), so that a statement over every state holds for every value of them. -/

namespace Sys2Proof

/-- What the inflate service returns: `Fail` or `Ok(s)` (42_inflate_adapter.md R98). -/
inductive InflateAnswer where
  /-- Any status other than 'success' or 'stream complete' (R98, R99). -/
  | fail
  /-- 'success' or 'stream complete', with the decompressed bytes. -/
  | ok (bytes : List Byte)
  deriving DecidableEq, Repr, Inhabited

/-- FREE VALUE (log entry 4). The inflate service: the answer to the call numbered `call` with the compressed bytes and
the expected length. The spec assumes nothing of it but that it answers (R98, R146), and not even that it is the same
function in two decodes; hence the call number. -/
opaque Config.inflate (call : Nat) (compressed : List Byte) (expectedLength : Nat) : InflateAnswer

/-- N_MAX (R6, D4): the spec assumes that a stream has at most this many bytes. The model's cursor is an unbounded
natural (10_state.md R15); Safety.lean says that under this bound 64 bits suffice. -/
def Config.nMax : Nat := 2 ^ 64 - 1

end Sys2Proof
end

