-- ==== Sys2Proof/Machine/State.lean ====
section
/-! DEFINITION. The state of the block as plain data (10_state.md R13), beside it the environment that belongs to the host
and the inflate service (00_scope.md R11), the reasons a step can stop, and the state after reset (R37). -/

namespace Sys2Proof.Machine

/-- One of the four byte spaces (20_memory.md R38): pairs of an address and a byte, addresses strictly rising. An address
not listed does not exist in the space, or has not been written: it has no value. -/
abbrev Memory := List Host.Cell

/-- The names of the four spaces (20_memory.md R38). -/
inductive Space where
  | input
  | cp
  | fs
  | rp
  deriving DecidableEq, Repr

/-- PHASE (10_state.md R14). Value 7 is never taken and has no constructor. -/
inductive Phase where
  | idle
  | sig
  | chunks
  | inflate
  | defilter
  | done
  | fault
  deriving DecidableEq, Repr

/-- The header registers loaded by IHDR (10_state.md R17 to R19). -/
structure Header where
  width : Word32
  height : Word32
  bitDepth : Byte
  colorMode : Byte
  compression : Byte
  filterMethod : Byte
  interlace : Byte
  deriving DecidableEq, Repr

/-- The derived-geometry registers (10_state.md R21 to R23). The products are exact (R96), hence naturals. -/
structure Geometry where
  bpp : BitVec 3
  stride : Nat
  expLen : Nat
  deriving DecidableEq, Repr

/-- The four flags (10_state.md R24). -/
structure Flags where
  sigOk : Bool
  hdrValid : Bool
  iendSeen : Bool
  unkFilt : Bool
  deriving DecidableEq, Repr

/-- The error registers (10_state.md R33). -/
structure ErrorRegs where
  kind : BitVec 3
  sub : BitVec 3
  pos : Nat
  deriving DecidableEq, Repr

/-- The typed decode errors, one for each pair of a kind and a sub-cause that some rule raises (60_exceptions.md R122 to
R126). The reserved sub-cause Interlace is never raised (R123) and has no constructor. -/
inductive DecodeError where
  | badSignature
  | invalidDimensions
  | duplicateHeader
  | missingHeader
  | invalidChunkLength
  | paletteChunk
  | colorMode
  | bitDepth
  | truncatedSignature
  | truncatedPayload
  | truncatedChecksum
  | serviceFailure
  | lengthMismatch
  | payloadCapacity
  | scanlineCapacity
  deriving DecidableEq, Repr

/-- What the host does at the point between two steps where the step finds the move (log entry 2). -/
inductive HostMove where
  /-- The host does nothing: the block takes its own step. -/
  | wait
  /-- A write of a register by its number (10_state.md R34); only number 0, CTRL, has an effect (R31). -/
  | write (reg : Nat) (value : Word32)
  /-- The platform's reset is applied (70_reset_and_hazards.md R137). -/
  | hardReset
  /-- The host binds an input stream (20_memory.md R40, 70_reset_and_hazards.md R141). -/
  | bind (bytes : List Byte)
  deriving DecidableEq, Repr

/-- One answer of the inflate service that the environment has fixed: to these arguments, this answer (95_test_vectors.md:
"a table-lookup oracle"). -/
structure ServiceEntry where
  compressed : List Byte
  expectedLength : Nat
  answer : InflateAnswer
  deriving DecidableEq, Repr

/-- What belongs to the host and the inflate service, not to the block (10_state.md R13). -/
structure Env where
  /-- IN (20_memory.md R40); its length N is the number of its bytes. -/
  input : Memory
  /-- Whether the host has bound a stream (70_reset_and_hazards.md R141). -/
  bound : Bool
  /-- The host's coming moves, the next one first; an empty list is a host that only waits. -/
  host : List HostMove
  /-- CP_CAP (00_scope.md R6); `none` is unbounded. -/
  cpCap : Option Nat
  /-- FS_CAP (00_scope.md R6); `none` is unbounded. -/
  fsCap : Option Nat
  /-- The answers of the inflate service that are fixed; any other answer is the free value `Config.inflate`. -/
  service : List ServiceEntry
  /-- The number of inflate calls so far, the counter the free value is applied to. -/
  calls : Nat
  deriving DecidableEq, Repr

/-- The complete architectural state (10_state.md R13) and the environment beside it. -/
structure State where
  /-- PHASE (R14). -/
  phase : Phase
  /-- CUR, the stream cursor (R15). -/
  cur : Nat
  /-- Y, the row counter (R16). -/
  y : Word32
  /-- WIDTH, HEIGHT, BITDEPTH, COLORMODE, COMPRESSION, FILTERMETHOD, INTERLACE (R17 to R19). -/
  hdr : Header
  /-- BPP, STRIDE, EXP_LEN (R21 to R23). -/
  geo : Geometry
  /-- CP_LEN (R20). -/
  cpLen : Nat
  /-- SIG_OK, HDR_VALID, IEND_SEEN, UNKFILT (R24). -/
  flags : Flags
  /-- ERR_KIND, ERR_SUB, ERR_POS (R33). -/
  err : ErrorRegs
  /-- CP (R27). -/
  cp : Memory
  /-- FS (R28). -/
  fs : Memory
  /-- RP (R29). -/
  rp : Memory
  /-- The host's and the service's side. -/
  env : Env
  deriving DecidableEq, Repr

/-- A stop of the model that the spec says never happens (20_memory.md R39: "a model may treat an attempt at one as an
internal error of the model"). The spec's own errors are no stops: they are taken (Ops.lean, `raise`). -/
inductive Fault where
  /-- Raised by every instruction but S_START that is handed to `exec` in a phase in which the spec never runs it (R77,
  R78, R93, R100: "Enabled when"). Safe: `step` never does so. -/
  | stepNotEnabled
  /-- Raised by a read of an address that the space does not have. Safe: it does not happen from a state that meets the
  invariant of Safety.lean. -/
  | unmapped (space : Space) (addr : Nat)
  deriving DecidableEq, Repr

/-- A behaviour the spec leaves unspecified, refused by name. -/
inductive Refusal where
  /-- Raised by `exec` for an instruction that has no meaning yet; no arm does so now. Safe. -/
  | notModelled (mnemonic : String)
  /-- Raised by S_START where no stream is bound: unspecified (70_reset_and_hazards.md R141, 93_implementation_defined.md
  U8: "refused in the model"). Safe: the host owes the block a stream. -/
  | startWithoutStream
  /-- Raised by a host that binds a stream while BUSY: unspecified (70_reset_and_hazards.md R142, U7: "the model has no
  such move"). Safe: the host owes the block not to. -/
  | inputChangedWhileBusy
  deriving DecidableEq, Repr

/-- Every header register at its reset value (10_state.md R37). -/
def Header.reset : Header :=
  { width := 0#32, height := 0#32, bitDepth := 0#8, colorMode := 0#8, compression := 0#8, filterMethod := 0#8,
    interlace := 0#8 }

/-- BPP, STRIDE and EXP_LEN at their reset values (R37). -/
def Geometry.reset : Geometry := { bpp := 0#3, stride := 0, expLen := 0 }

/-- Every flag 0 (R37). -/
def Flags.reset : Flags := { sigOk := false, hdrValid := false, iendSeen := false, unkFilt := false }

/-- No error taken (R33, R37). -/
def ErrorRegs.reset : ErrorRegs := { kind := 0#3, sub := 0#3, pos := 0 }

/-- The environment before the host has done anything: no stream, no move, both capacities unbounded (the spec's default,
R6), no answer fixed (log entries 1 to 4). -/
def Env.initial : Env :=
  { input := [], bound := false, host := [], cpCap := none, fsCap := none, service := [], calls := 0 }

/-- The block at its reset values (10_state.md R37) beside the environment `env`. -/
def State.resetIn (env : Env) : State :=
  { phase := .idle, cur := 0, y := 0#32, hdr := Header.reset, geo := Geometry.reset, cpLen := 0, flags := Flags.reset,
    err := ErrorRegs.reset, cp := [], fs := [], rp := [], env := env }

/-- The machine right after reset (10_state.md R37, 70_reset_and_hazards.md R137). -/
def State.reset : State := State.resetIn Env.initial

end Sys2Proof.Machine
end

