-- ==== Sys2Proof/Machine/Ops.lean ====
section
/-! DEFINITION. The named operations: reading and writing a space, `StreamRead`, resetting the block, taking an error and
leaving FAULT, and the small register updates that several rules share. -/

namespace Sys2Proof.Machine

/-! ## A byte space (20_memory.md R38) -/

/-- The byte at address `a`, or `none` where the space has no such byte. -/
def Memory.read : Memory → Nat → Option Byte
  | [], _ => none
  | (b, v) :: m, a => if a = b then some v else Memory.read m a

/-- Write the byte at address `a`, keeping the addresses rising. -/
def Memory.write : Memory → Nat → Byte → Memory
  | [], a, v => [(a, v)]
  | (b, w) :: m, a, v =>
    if a < b then (a, v) :: (b, w) :: m
    else if a = b then (a, v) :: m
    else (b, w) :: Memory.write m a v

/-- `MemRead(S, a, n)` (00_scope.md R8): `none` if one of the bytes does not exist. -/
def Memory.readBytes (m : Memory) : Nat → Nat → Option (List Byte)
  | _, 0 => some []
  | a, n + 1 =>
    match Memory.read m a with
    | none => none
    | some b =>
      match Memory.readBytes m (a + 1) n with
      | none => none
      | some bs => some (b :: bs)

/-- `MemWrite(S, a, n, v)` (00_scope.md R8), `n` being the length of `v`. -/
def Memory.writeBytes : Memory → Nat → List Byte → Memory
  | m, _, [] => m
  | m, a, b :: bs => Memory.writeBytes (Memory.write m a b) (a + 1) bs

/-- The space that holds exactly these bytes from address `a` on. -/
def Memory.ofBytes : Nat → List Byte → Memory
  | _, [] => []
  | a, b :: bs => (a, b) :: Memory.ofBytes (a + 1) bs

/-- The canonical form: addresses strictly rising. (An unlisted address reads as no value, so no byte is redundant.) -/
abbrev Memory.wf (m : Memory) : Prop := (m.map Prod.fst).Pairwise (· < ·)

/-- The space has exactly the addresses 0 to `n - 1` (20_memory.md R38: a finite sequence of bytes of length `n`). -/
abbrev Memory.dense (m : Memory) (n : Nat) : Prop := m.map Prod.fst = List.range n

/-- The contents of a released buffer are no longer defined (20_memory.md R57); this model drops them (log entry 5). -/
def Memory.released : Memory := []

/-- One byte of the space named `sp`; a byte that does not exist stops the model. -/
def fetchByte (sp : Space) (m : Memory) (a : Nat) : Except Fault Byte :=
  match Memory.read m a with
  | some b => .ok b
  | none => .error (.unmapped sp a)

/-! ## The conditions on PHASE (10_state.md R25) -/

/-- BUSY. -/
def Phase.busy : Phase → Bool
  | .idle => false
  | .sig => true
  | .chunks => true
  | .inflate => true
  | .defilter => true
  | .done => false
  | .fault => false

/-- DONE. -/
def Phase.isDone (p : Phase) : Bool := p == .done

/-- ERR. -/
def Phase.isErr (p : Phase) : Bool := p == .fault

/-! ## The input stream -/

/-- N, the length of IN (20_memory.md R40). -/
def State.inLen (s : State) : Nat := s.env.input.length

/-- What a `StreamRead` finds. -/
inductive StreamResult where
  /-- The bytes, and the state with the cursor behind them. -/
  | bytes (b : List Byte) (s : State)
  /-- `Short`: the state with the cursor at the end of the stream. -/
  | short (s : State)
  /-- IN has a hole (excluded by the invariant of Safety.lean). -/
  | hole (a : Nat)
  deriving DecidableEq, Repr

/-- `StreamRead(n)` (20_memory.md R43). -/
def streamRead (n : Nat) (s : State) : StreamResult :=
  if s.cur + n ≤ s.inLen then
    match Memory.readBytes s.env.input s.cur n with
    | some b => .bytes b { s with cur := s.cur + n }
    | none => .hole s.cur
  else .short { s with cur := s.inLen }

/-! ## Errors (60_exceptions.md) -/

/-- The code of the error's kind (60_exceptions.md R121). -/
def DecodeError.kindCode : DecodeError → BitVec 3
  | .badSignature => 1#3
  | .invalidDimensions => 1#3
  | .duplicateHeader => 1#3
  | .missingHeader => 1#3
  | .invalidChunkLength => 1#3
  | .paletteChunk => 2#3
  | .colorMode => 2#3
  | .bitDepth => 2#3
  | .truncatedSignature => 3#3
  | .truncatedPayload => 3#3
  | .truncatedChecksum => 3#3
  | .serviceFailure => 4#3
  | .lengthMismatch => 4#3
  | .payloadCapacity => 5#3
  | .scanlineCapacity => 5#3

/-- The code of the error's sub-cause (60_exceptions.md R122 to R126). -/
def DecodeError.subCode : DecodeError → BitVec 3
  | .badSignature => 1#3
  | .invalidDimensions => 2#3
  | .duplicateHeader => 3#3
  | .missingHeader => 4#3
  | .invalidChunkLength => 5#3
  | .paletteChunk => 1#3
  | .colorMode => 2#3
  | .bitDepth => 3#3
  | .truncatedSignature => 1#3
  | .truncatedPayload => 2#3
  | .truncatedChecksum => 3#3
  | .serviceFailure => 1#3
  | .lengthMismatch => 2#3
  | .payloadCapacity => 1#3
  | .scanlineCapacity => 2#3

/-- `raise` (60_exceptions.md R130): the error's codes and the position go into the error registers, the three buffers are
released, PHASE becomes FAULT. Nothing else changes: every register write made before stays made (R131). -/
def raise (e : DecodeError) (pos : Nat) (s : State) : State :=
  { s with
    err := { kind := e.kindCode, sub := e.subCode, pos := pos }
    cp := Memory.released
    fs := Memory.released
    rp := Memory.released
    phase := .fault }

/-- Hard and soft reset (70_reset_and_hazards.md R137, R138): the block takes the state of 10_state.md R37, in any phase.
With START it is the only way out of FAULT (60_exceptions.md R133); there is no other return from an error. The host's and
the service's side is not the block's, and stays. -/
def resetBlock (s : State) : State := State.resetIn s.env

/-- The effect of S_START (40_stream_front.md R76): everything at its reset value, then PHASE = SIG. -/
def startDecode (s : State) : State := { State.resetIn s.env with phase := .sig }

/-! ## Register updates that several rules share -/

/-- `EndOfParse` (40_stream_front.md R84). -/
def endOfParse (s : State) : State := { s with phase := .inflate }

/-- SIG_OK <- 1, PHASE <- CHUNKS (40_stream_front.md R77). -/
def acceptSignature (s : State) : State := { s with flags := { s.flags with sigOk := true }, phase := .chunks }

/-- The header registers take the payload's fields and HDR_VALID becomes 1 (41_chunk_ops.md R87). -/
def latchHeader (h : Header) (s : State) : State := { s with hdr := h, flags := { s.flags with hdrValid := true } }

/-- The payload is appended to CP (41_chunk_ops.md R88). -/
def appendPayload (len : Nat) (p : List Byte) (s : State) : State :=
  { s with cp := Memory.writeBytes s.cp s.cpLen p, cpLen := s.cpLen + len }

/-- IEND_SEEN <- 1 (41_chunk_ops.md R89). -/
def markIend (s : State) : State := { s with flags := { s.flags with iendSeen := true } }

/-- BPP, STRIDE and EXP_LEN take the values of 42_inflate_adapter.md R95 and R96; the products are exact. -/
def setGeometry (bpp : BitVec 3) (s : State) : State :=
  { s with
    geo :=
      { bpp := bpp
        stride := s.hdr.width.toNat * bpp.toNat
        expLen := s.hdr.height.toNat * (s.hdr.width.toNat * bpp.toNat + 1) } }

/-- The inflate service has returned: CP is released (42_inflate_adapter.md R93, R99) and the call is counted. -/
def afterInflate (s : State) : State :=
  { s with cp := Memory.released, env := { s.env with calls := s.env.calls + 1 } }

/-- FS is filled with the service's answer, Y becomes 0, PHASE becomes DEFILTER (42_inflate_adapter.md R93, R99). -/
def fillScanlines (r : List Byte) (s : State) : State :=
  { s with fs := Memory.writeBytes s.fs 0 r, y := 0#32, phase := .defilter }

/-- The end of a row (43_defilter.md R114): RP is as the row left it, Y moves on; after the last row FS is released and
PHASE becomes DONE. -/
def finishRow (rp : Memory) (s : State) : State :=
  if s.y + 1#32 = s.hdr.height then
    { s with rp := rp, y := s.y + 1#32, fs := Memory.released, phase := .done }
  else { s with rp := rp, y := s.y + 1#32 }

/-- UNKFILT <- 1 (43_defilter.md R110). -/
def markUnknownFilter (s : State) : State := { s with flags := { s.flags with unkFilt := true } }

/-- The cursor at the end of IN: what a short `StreamRead` leaves (20_memory.md R43). -/
def drainInput (s : State) : State := { s with cur := s.inLen }

end Sys2Proof.Machine
end

