-- ==== Sys2Proof/Machine/Operands.lean ====
section
/-! DEFINITION. The operand forms: the fields of the header payload (30_encoding.md R62), the addresses and neighbours of a
row's bytes (43_defilter.md R101, R103) and the predictors (R105 to R113). -/

namespace Sys2Proof.Machine

/-! ## The IHDR payload -/

/-- Byte `i` of a payload. (A payload that was read has all its bytes; beyond them the answer is 0.) -/
def payloadByte (p : List Byte) (i : Nat) : Byte := p.getD i 0#8

/-- The header fields of the 13-byte IHDR payload (30_encoding.md R62). -/
def headerOf (p : List Byte) : Header :=
  { width := be32 (payloadByte p 0) (payloadByte p 1) (payloadByte p 2) (payloadByte p 3)
    height := be32 (payloadByte p 4) (payloadByte p 5) (payloadByte p 6) (payloadByte p 7)
    bitDepth := payloadByte p 8
    colorMode := payloadByte p 9
    compression := payloadByte p 10
    filterMethod := payloadByte p 11
    interlace := payloadByte p 12 }

/-- BPP of a colour mode (42_inflate_adapter.md R95): 4 for TrueColorAlpha, 3 for TrueColor, no other is supported. -/
def bppOf (colorMode : Byte) : Option (BitVec 3) :=
  if colorMode = 6#8 then some 4#3 else if colorMode = 2#8 then some 3#3 else none

/-- Whether `n` bytes exceed a capacity (00_scope.md R6: a natural or unbounded). -/
def exceeds (n : Nat) : Option Nat → Bool
  | none => false
  | some cap => decide (cap < n)

/-! ## Predictors (43_defilter.md): arguments are left, above, upperLeft -/

/-- A predictor of one byte from its three neighbours. -/
abbrev Predictor := Byte → Byte → Byte → Byte

/-- NONE (R105). -/
def predictNone : Predictor := fun _ _ _ => 0#8

/-- SUB (R106). -/
def predictSub : Predictor := fun left _ _ => left

/-- UP (R107). -/
def predictUp : Predictor := fun _ above _ => above

/-- AVERAGE (R108, R113): the sum is exact, then halved. -/
def predictAverage : Predictor := fun left above _ => BitVec.ofNat 8 ((left.toNat + above.toNat) / 2)

/-- PAETH (R109, R112): the distances are exact integers; ties go to left, then above, then upperLeft. -/
def predictPaeth : Predictor := fun left above upperLeft =>
  let a : Int := left.toNat
  let b : Int := above.toNat
  let c : Int := upperLeft.toNat
  let p := a + b - c
  let pa := (p - a).natAbs
  let pb := (p - b).natAbs
  let pc := (p - c).natAbs
  if pa ≤ pb ∧ pa ≤ pc then left else if pb ≤ pc then above else upperLeft

/-- UNKNOWN (R110): as NONE. -/
def predictUnknown : Predictor := fun _ _ _ => 0#8

/-- `Predict(f, left, above, upperLeft)` of 43_defilter.md R100, by the filter-type byte. -/
def predictorOf (ftype : Byte) : Predictor :=
  if ftype = 0#8 then predictNone
  else if ftype = 1#8 then predictSub
  else if ftype = 2#8 then predictUp
  else if ftype = 3#8 then predictAverage
  else if ftype = 4#8 then predictPaeth
  else predictUnknown

/-! ## Addresses and neighbours -/

/-- Where row Y of FS starts: its filter-type byte (43_defilter.md R101). -/
def rowBase (s : State) : Nat := s.y.toNat * (s.geo.stride + 1)

/-- The address in RP of byte `x` of row Y (R101). -/
def outAddr (s : State) (x : Nat) : Nat := s.y.toNat * s.geo.stride + x

/-- The address in RP of byte `x` of row Y - 1 (R103). -/
def aboveAddr (s : State) (x : Nat) : Nat := (s.y.toNat - 1) * s.geo.stride + x

/-- A neighbour: the byte of RP at the address, or 0 where the neighbour is outside the image (R103). -/
def neighbour (inside : Bool) (rp : Memory) (a : Nat) : Except Fault Byte :=
  if inside then fetchByte .rp rp a else .ok 0#8

/-- `left` of byte `x` (R103). -/
def leftOf (s : State) (rp : Memory) (x : Nat) : Except Fault Byte :=
  neighbour (decide (s.geo.bpp.toNat ≤ x)) rp (outAddr s x - s.geo.bpp.toNat)

/-- `above` of byte `x` (R103). -/
def aboveOf (s : State) (rp : Memory) (x : Nat) : Except Fault Byte :=
  neighbour (decide (0 < s.y.toNat)) rp (aboveAddr s x)

/-- `upperLeft` of byte `x` (R103). -/
def upperLeftOf (s : State) (rp : Memory) (x : Nat) : Except Fault Byte :=
  neighbour (decide (s.geo.bpp.toNat ≤ x) && decide (0 < s.y.toNat)) rp (aboveAddr s x - s.geo.bpp.toNat)

end Sys2Proof.Machine
end

