-- ==== Sys2Proof/Machine/Stream.lean ====
section
/-! DEFINITION. The front of unit CSP (40_stream_front.md): the signature record, the frame that every chunk operation runs
in, and what a stream too short for a record does. -/

namespace Sys2Proof.Machine

/-- What every meaning answers. -/
abbrev StepOutcome := Host.Outcome State Fault Refusal

/-- Step S_SIG (40_stream_front.md R77) on a record whose MAGIC is `magic`; both errors record position 0. -/
def execSig (magic : Word64) (s : State) : StepOutcome :=
  if s.phase = .sig then
    match streamRead 8 s with
    | .hole a => .fault (.unmapped .input a)
    | .short t => .next (raise .truncatedSignature 0 t)
    | .bytes _ t => if magic = sigMagic then .next (acceptSignature t) else .next (raise .badSignature 0 t)
  else .fault .stepNotEnabled

/-- S_SIG on a stream of fewer than 8 bytes (R77): there is no record to decode. -/
def shortSignature (s : State) : State := raise .truncatedSignature 0 (drainInput s)

/-- S_CHUNK on a stream that ends in LEN or TYPE (40_stream_front.md R79, R80): the bytes are consumed, the loop ends. -/
def shortChunk (s : State) : State := endOfParse (drainInput s)

/-- What a chunk operation answers: done, an error to take, or a stop of the model. -/
inductive OpResult where
  | done (s : State)
  | raised (e : DecodeError) (s : State)
  | stop (f : Fault)
  deriving DecidableEq, Repr

/-- Read `n` payload bytes and go on with them; a short read is TruncatedInputError(Payload) (41_chunk_ops.md R86). -/
def withPayload (n : Nat) (s : State) (k : List Byte → State → OpResult) : OpResult :=
  match streamRead n s with
  | .hole a => .stop (.unmapped .input a)
  | .short t => .raised .truncatedPayload t
  | .bytes p t => k p t

/-- The checksum field (40_stream_front.md R83): four bytes, discarded; `start` is the offset of the chunk. -/
def skipChecksum (start : Nat) (s : State) : StepOutcome :=
  match streamRead 4 s with
  | .hole a => .fault (.unmapped .input a)
  | .short t => .next (raise .truncatedChecksum start t)
  | .bytes _ t => .next t

/-- The rest of S_CHUNK once the operation has answered (40_stream_front.md R78): its error is taken at the chunk's offset,
or the checksum is consumed. -/
def finishChunk (start : Nat) (r : OpResult) : StepOutcome :=
  match r with
  | .stop f => .fault f
  | .raised e t => .next (raise e start t)
  | .done t => skipChecksum start t

/-- Step S_CHUNK (40_stream_front.md R78) on a record whose LEN and TYPE have been decoded and have selected the operation
`op`: LEN and TYPE are consumed, the operation runs, the checksum is consumed. Every error records the chunk's offset. -/
def chunkStep (op : State → OpResult) (s : State) : StepOutcome :=
  if s.phase = .chunks then
    match streamRead 4 s with
    | .hole a => .fault (.unmapped .input a)
    | .short t => .next (endOfParse t)
    | .bytes _ t1 =>
      match streamRead 4 t1 with
      | .hole a => .fault (.unmapped .input a)
      | .short t => .next (endOfParse t)
      | .bytes _ t2 => finishChunk s.cur (op t2)
  else .fault .stepNotEnabled

end Sys2Proof.Machine
end

