-- ==== Sys2Proof/Machine/Chunk.lean ====
section
/-! DEFINITION. The five chunk operations (41_chunk_ops.md R86 to R91), each with its checks in the spec's order
(60_exceptions.md R127), and the instructions that run them inside S_CHUNK. -/

namespace Sys2Proof.Machine

/-- OpIHDR (R87): duplicate header, length, truncation, dimensions; the registers are written only when all pass. -/
def opIhdr (len : Word32) (s : State) : OpResult :=
  if s.flags.hdrValid = true then .raised .duplicateHeader s
  else if len ≠ 13#32 then .raised .invalidChunkLength s
  else withPayload 13 s fun p t =>
    if (headerOf p).width = 0#32 ∨ (headerOf p).height = 0#32 then .raised .invalidDimensions t
    else .done (latchHeader (headerOf p) t)

/-- OpIDAT (R88): missing header, capacity, truncation; then the payload is appended to CP. -/
def opIdat (len : Word32) (s : State) : OpResult :=
  if s.flags.hdrValid = false then .raised .missingHeader s
  else if exceeds (s.cpLen + len.toNat) s.env.cpCap = true then .raised .payloadCapacity s
  else withPayload len.toNat s fun p t => .done (appendPayload len.toNat p t)

/-- OpIEND (R89): no payload; sets IEND_SEEN. -/
def opIend (len : Word32) (s : State) : OpResult :=
  if len ≠ 0#32 then .raised .invalidChunkLength s else .done (markIend s)

/-- OpPLTE (R90): always refused, whatever the length; no payload byte is read. -/
def opPlte (_len : Word32) (s : State) : OpResult := .raised .paletteChunk s

/-- OpOTHER (R91): the payload is read and discarded. -/
def opOther (len : Word32) (s : State) : OpResult := withPayload len.toNat s fun _ t => .done t

/-- IHDR (41_chunk_ops.md R87). -/
def execIhdr (len : Word32) (s : State) : StepOutcome := chunkStep (opIhdr len) s

/-- IDAT (41_chunk_ops.md R88). -/
def execIdat (len : Word32) (s : State) : StepOutcome := chunkStep (opIdat len) s

/-- IEND (41_chunk_ops.md R89). -/
def execIend (len : Word32) (s : State) : StepOutcome := chunkStep (opIend len) s

/-- PLTE (41_chunk_ops.md R90). -/
def execPlte (len : Word32) (s : State) : StepOutcome := chunkStep (opPlte len) s

/-- OTHER (41_chunk_ops.md R91); the tag has done its work in the dispatch (40_stream_front.md R81). -/
def execOther (len : Word32) (_tag : Word32) (s : State) : StepOutcome := chunkStep (opOther len) s

end Sys2Proof.Machine
end

