-- ==== Sys2Proof/Machine/Defilter.lean ====
section
/-! DEFINITION. Unit SDF (43_defilter.md): step S_ROW (R100) once, over a predictor, and the six row instructions. -/

namespace Sys2Proof.Machine

/-- The output byte `x` of row Y from the input byte and the neighbours, all three of them (R100, R103, R111); `rp` is RP
as the bytes before `x` have left it. -/
def reconByte (predict : Predictor) (s : State) (rp : Memory) (x : Nat) : Except Fault Byte :=
  match fetchByte .fs s.fs (rowBase s + 1 + x), leftOf s rp x, aboveOf s rp x, upperLeftOf s rp x with
  | .ok raw, .ok left, .ok above, .ok upperLeft => .ok (raw + predict left above upperLeft)
  | .error f, _, _, _ => .error f
  | _, .error f, _, _ => .error f
  | _, _, .error f, _ => .error f
  | _, _, _, .error f => .error f

/-- The bytes `x`, `x + 1`, … of row Y, `n` of them, in increasing order (R104). -/
def rowLoop (predict : Predictor) (s : State) : Nat → Nat → Memory → Except Fault Memory
  | 0, _, rp => .ok rp
  | n + 1, x, rp =>
    match reconByte predict s rp x with
    | .error f => .error f
    | .ok v => rowLoop predict s n (x + 1) (Memory.write rp (outAddr s x) v)

/-- Step S_ROW (R100) with the predictor its filter-type byte has selected. -/
def rowStep (predict : Predictor) (s : State) : StepOutcome :=
  if s.phase = .defilter then
    match rowLoop predict s s.geo.stride 0 s.rp with
    | .error f => .fault f
    | .ok rp => .next (finishRow rp s)
  else .fault .stepNotEnabled

/-- NONE (R105). -/
def execNone (s : State) : StepOutcome := rowStep predictNone s

/-- SUB (R106). -/
def execSub (s : State) : StepOutcome := rowStep predictSub s

/-- UP (R107). -/
def execUp (s : State) : StepOutcome := rowStep predictUp s

/-- AVERAGE (R108). -/
def execAverage (s : State) : StepOutcome := rowStep predictAverage s

/-- PAETH (R109). -/
def execPaeth (s : State) : StepOutcome := rowStep predictPaeth s

/-- UNKNOWN (R110): as NONE, with UNKFILT set; the value of the filter-type byte is not recorded. -/
def execUnknown (_ftype : Byte) (s : State) : StepOutcome := rowStep predictUnknown (markUnknownFilter s)

end Sys2Proof.Machine
end

