-- ==== Sys2Proof/Machine/Inflate.lean ====
section
/-! DEFINITION. The inflate adapter (42_inflate_adapter.md): step S_INFLATE, in the order of R93. -/

namespace Sys2Proof.Machine

/-- The inflate service's answer (R98): the one the environment has fixed for these arguments, else the free value of this
call (log entry 4). -/
def askService (env : Env) (compressed : List Byte) (expectedLength : Nat) : InflateAnswer :=
  match env.service.find? (fun e => e.compressed == compressed && e.expectedLength == expectedLength) with
  | some e => e.answer
  | none => Config.inflate env.calls compressed expectedLength

/-- Checking the answer and filling FS (R99). -/
def takeAnswer (r : InflateAnswer) (s : State) : State :=
  match r with
  | .fail => raise .serviceFailure s.cur s
  | .ok bytes =>
    if bytes.length ≠ s.geo.expLen then raise .lengthMismatch s.cur s else fillScanlines bytes s

/-- The call of the service on the whole of CP (R98), from a state whose geometry is set. -/
def callService (s : State) : StepOutcome :=
  match Memory.readBytes s.cp 0 s.cpLen with
  | none => .fault (.unmapped .cp 0)
  | some compressed => .next (takeAnswer (askService s.env compressed s.geo.expLen) (afterInflate s))

/-- Step S_INFLATE (R93): missing header, bit depth (R94), colour mode (R95), geometry (R96), capacity (R97), the service
(R98, R99). Every error records the final cursor of the chunk loop. -/
def execSInflate (s : State) : StepOutcome :=
  if s.phase = .inflate then
    if s.flags.hdrValid = false then .next (raise .missingHeader s.cur s)
    else if s.hdr.bitDepth ≠ 8#8 then .next (raise .bitDepth s.cur s)
    else match bppOf s.hdr.colorMode with
      | none => .next (raise .colorMode s.cur s)
      | some bpp =>
        if exceeds (setGeometry bpp s).geo.expLen s.env.fsCap = true then
          .next (raise .scanlineCapacity s.cur (setGeometry bpp s))
        else callService (setGeometry bpp s)
  else .fault .stepNotEnabled

end Sys2Proof.Machine
end

