-- ==== Sys2Proof/Machine/Start.lean ====
section
/-! DEFINITION. Step S_START (40_stream_front.md R76). -/

namespace Sys2Proof.Machine

/-- S_START (R76): ignored while BUSY (70_reset_and_hazards.md R145); unspecified without a bound stream (R141, U8). -/
def execSStart (s : State) : StepOutcome :=
  if s.phase.busy = true then .next s
  else if s.env.bound = false then .refused .startWithoutStream
  else .next (startDecode s)

end Sys2Proof.Machine
end

