-- ==== Sys2Proof/Machine/Dispatch.lean ====
section
/-! DEFINITION. One arm per instruction. -/

namespace Sys2Proof.Machine

def exec (i : Instr) (s : State) : Host.Outcome State Fault Refusal :=
  match i with
  | .sig magic => Sys2Proof.Machine.execSig magic s
  | .ihdr len => Sys2Proof.Machine.execIhdr len s
  | .idat len => Sys2Proof.Machine.execIdat len s
  | .iend len => Sys2Proof.Machine.execIend len s
  | .plte len => Sys2Proof.Machine.execPlte len s
  | .other len tag => Sys2Proof.Machine.execOther len tag s
  | .none => Sys2Proof.Machine.execNone s
  | .sub => Sys2Proof.Machine.execSub s
  | .up => Sys2Proof.Machine.execUp s
  | .average => Sys2Proof.Machine.execAverage s
  | .paeth => Sys2Proof.Machine.execPaeth s
  | .unknown ftype => Sys2Proof.Machine.execUnknown ftype s
  | .sStart => Sys2Proof.Machine.execSStart s
  | .sInflate => Sys2Proof.Machine.execSInflate s

end Sys2Proof.Machine
end

