-- ==== Sys2Proof/Machine/Fetch.lean ====
section
/-! DEFINITION. What the next step is: the host's move if it makes one, else the block's step by PHASE (40_stream_front.md
R84), with the record fetched and decoded. -/

namespace Sys2Proof.Machine

/-- What a step does. -/
inductive Action where
  /-- The instruction runs. -/
  | run (i : Instr) (s : State)
  /-- The machine moves on without an instruction. -/
  | become (s : State)
  | fault (f : Fault)
  | refuse (r : Refusal)
  deriving DecidableEq, Repr

/-- How many bytes of a record of 8 the stream still has at the cursor. -/
def available (s : State) : Nat := min 8 (s.inLen - s.cur)

/-- The block's own next step (40_stream_front.md R84). In IDLE, DONE and FAULT there is none (70_reset_and_hazards.md
R137, 60_exceptions.md R133). -/
def blockAction (s : State) : Action :=
  match s.phase with
  | .idle => .become s
  | .done => .become s
  | .fault => .become s
  | .sig =>
    match Memory.readBytes s.env.input s.cur (available s) with
    | none => .fault (.unmapped .input s.cur)
    | some bs =>
      match decode .sig bs with
      | .ok (i, _) => .run i s
      | .error _ => .become (shortSignature s)
  | .chunks =>
    match Memory.readBytes s.env.input s.cur (available s) with
    | none => .fault (.unmapped .input s.cur)
    | some bs =>
      match decode .chunk bs with
      | .ok (i, _) => .run i s
      | .error _ => .become (shortChunk s)
  | .inflate => .run .sInflate s
  | .defilter =>
    match Memory.read s.fs (rowBase s) with
    | none => .fault (.unmapped .fs (rowBase s))
    | some f =>
      match decode .row [f] with
      | .ok (i, _) => .run i s
      | .error _ => .fault (.unmapped .fs (rowBase s))

/-- A write of CTRL (10_state.md R31): bit 1 RESET, else bit 0 START; the other bits are ignored. -/
def ctrlAction (value : Word32) (s : State) : Action :=
  if value.getLsbD 1 = true then .become (resetBlock s)
  else if value.getLsbD 0 = true then .run .sStart s
  else .become s

/-- A move of the host (log entry 2): a write to a register other than CTRL is ignored (R34). -/
def hostAction (m : HostMove) (s : State) : Action :=
  match m with
  | .wait => blockAction s
  | .write reg value => if reg = 0 then ctrlAction value s else .become s
  | .hardReset => .become (resetBlock s)
  | .bind bytes =>
    if s.phase.busy = true then .refuse .inputChangedWhileBusy
    else .become { s with env := { s.env with input := Memory.ofBytes 0 bytes, bound := true } }

/-- The state with the host's next move taken from its list. -/
def popMove (s : State) : State := { s with env := { s.env with host := s.env.host.tail } }

/-- What the next step does. -/
def nextAction (s : State) : Action :=
  match s.env.host with
  | [] => blockAction s
  | m :: _ => hostAction m (popMove s)

/-- The state with the bytes of an opcode-table word where the next step fetches: the signature or the chunk in IN at CUR,
the row's filter-type byte in FS where row Y starts, S_START as a write of CTRL (log entry 10). The host makes no other
move, so that the record is what the next step runs. -/
def placeRecord (nbits w : Nat) (s : State) : State :=
  if nbits = 64 then
    { s with
      phase := .sig
      env := { s.env with
        host := [], bound := true, input := Memory.writeBytes s.env.input s.cur (tableBytes nbits w) } }
  else if nbits = 32 then
    { s with
      phase := .chunks
      env := { s.env with
        host := [], bound := true, input := Memory.writeBytes s.env.input s.cur (tableBytes nbits w) } }
  else if nbits = 8 then
    { s with
      phase := .defilter
      fs := Memory.writeBytes s.fs (rowBase s) (tableBytes nbits w ++ List.replicate s.geo.stride 0#8)
      env := { s.env with host := [] } }
  else { s with env := { s.env with host := [.write 0 1#32], bound := true } }

end Sys2Proof.Machine
end

