-- ==== Sys2Proof/Machine/Step.lean ====
section
/-! DEFINITION. One step of the machine (00_scope.md R9), and the placing of an opcode-table word for the next step. -/

namespace Sys2Proof.Machine

/-- One step: the host's next move, or the block's own step. -/
def step (s : State) : Host.Outcome State Fault Refusal :=
  match nextAction s with
  | .run i t => exec i t
  | .become t => .next t
  | .fault f => .fault f
  | .refuse r => .refused r

/-- The state with an opcode-table word placed where the next step fetches its instruction. -/
def State.withFetchWord (s : State) (nbits w : Nat) : State := placeRecord nbits w s

end Sys2Proof.Machine
end

