-- ==== Sys2Proof/Machine/Flags.lean ====
section
/-! DEFINITION. What the host sees: STATUS (10_state.md R32), the register map (R34), RP when DONE (70_reset_and_hazards.md
R144), and the block's output with the Pixel Assembler that reads it (44_pixel_assembler.md R118, R119). -/

namespace Sys2Proof.Machine

/-- The code of PHASE (10_state.md R14). -/
def Phase.code : Phase → BitVec 3
  | .idle => 0#3
  | .sig => 1#3
  | .chunks => 2#3
  | .inflate => 3#3
  | .defilter => 4#3
  | .done => 5#3
  | .fault => 6#3

/-- STATUS (10_state.md R32): BUSY, DONE, ERR, SIG_OK, HDR_VALID, IEND_SEEN, UNKFILT in bits 0 to 6, bit 7 zero, PHASE in
bits 10:8, the rest zero. -/
def statusWord (s : State) : Word32 :=
  BitVec.ofNat 32
    (s.phase.busy.toNat + 2 * s.phase.isDone.toNat + 4 * s.phase.isErr.toNat + 8 * s.flags.sigOk.toNat
      + 16 * s.flags.hdrValid.toNat + 32 * s.flags.iendSeen.toNat + 64 * s.flags.unkFilt.toNat
      + 256 * s.phase.code.toNat)

/-- A read of a register by its number (10_state.md R34). CTRL reads 0 (R31) and so does a number above 17. The registers
of "at least" 64, 34 or 66 bits are read as naturals. -/
def hostRead (s : State) (reg : Nat) : Nat :=
  if reg = 1 then (statusWord s).toNat
  else if reg = 2 then s.err.kind.toNat
  else if reg = 3 then s.err.sub.toNat
  else if reg = 4 then s.err.pos
  else if reg = 5 then s.cur
  else if reg = 6 then s.hdr.width.toNat
  else if reg = 7 then s.hdr.height.toNat
  else if reg = 8 then s.hdr.bitDepth.toNat
  else if reg = 9 then s.hdr.colorMode.toNat
  else if reg = 10 then s.hdr.compression.toNat
  else if reg = 11 then s.hdr.filterMethod.toNat
  else if reg = 12 then s.hdr.interlace.toNat
  else if reg = 13 then s.cpLen
  else if reg = 14 then s.geo.bpp.toNat
  else if reg = 15 then s.geo.stride
  else if reg = 16 then s.geo.expLen
  else if reg = 17 then s.y.toNat
  else 0

/-- The host's read of RP: only when DONE (20_memory.md R39, 70_reset_and_hazards.md R144). -/
def hostReadRp (s : State) (a : Nat) : Option Byte := if s.phase = .done then Memory.read s.rp a else none

/-- The block's output (44_pixel_assembler.md R118), with the flags beside it. -/
structure Output where
  width : Word32
  height : Word32
  bpp : BitVec 3
  rp : Memory
  flags : Flags
  deriving DecidableEq, Repr

/-- The output, valid only when PHASE = DONE (R118). -/
def output (s : State) : Option Output :=
  if s.phase = .done then
    some { width := s.hdr.width, height := s.hdr.height, bpp := s.geo.bpp, rp := s.rp, flags := s.flags }
  else none

/-- One pixel (44_pixel_assembler.md R119). -/
structure Pixel where
  r : Byte
  g : Byte
  b : Byte
  a : Byte
  deriving DecidableEq, Repr

/-- The Pixel Assembler's pixel number `i` (R119): outside the block, a reader of its output. -/
def pixelAt (o : Output) (i : Nat) : Option Pixel :=
  match Memory.read o.rp (i * o.bpp.toNat), Memory.read o.rp (i * o.bpp.toNat + 1),
      Memory.read o.rp (i * o.bpp.toNat + 2) with
  | some r, some g, some b =>
    if o.bpp = 4#3 then
      match Memory.read o.rp (i * o.bpp.toNat + 3) with
      | some a => some { r := r, g := g, b := b, a := a }
      | none => none
    else some { r := r, g := g, b := b, a := 255#8 }
  | _, _, _ => none

/-- All pixels, row-major (R119). -/
def pixels (o : Output) : Option (List Pixel) :=
  (List.range (o.width.toNat * o.height.toNat)).mapM (pixelAt o)

end Sys2Proof.Machine
end

