-- ==== Sys2Proof/Safety.lean ====
section
/-! DEFINITION. The terms claims are made in: which states are consistent (`State.Inv`), what the host owes the block, when an
instruction is enabled, what it means that an error was taken, and the readings of RP and FS that row claims use. -/

namespace Sys2Proof.Machine

/-! ## Consistent states -/

/-- IN is a sequence of N bytes (20_memory.md R38, R40). -/
abbrev InputOk (s : State) : Prop := Memory.dense s.env.input s.inLen

/-- The geometry registers are not derived yet, or are the exact products (10_state.md R21 to R23). -/
abbrev GeometryOk (s : State) : Prop :=
  s.geo = Geometry.reset ∨
    ((s.geo.bpp = 3#3 ∨ s.geo.bpp = 4#3) ∧ s.geo.stride = s.hdr.width.toNat * s.geo.bpp.toNat ∧
      s.geo.expLen = s.hdr.height.toNat * (s.geo.stride + 1))

/-- The header registers hold an accepted header, or their reset values with no payload taken (41_chunk_ops.md R87, R88). -/
abbrev HeaderOk (s : State) : Prop :=
  if s.flags.hdrValid = true then s.hdr.width ≠ 0#32 ∧ s.hdr.height ≠ 0#32
  else s.hdr = Header.reset ∧ s.cpLen = 0

/-- During and right after the chunk loop: CP holds CP_LEN bytes (10_state.md R20), nothing of unit SDF has begun. -/
abbrev ParseOk (s : State) : Prop :=
  s.flags.sigOk = true ∧ HeaderOk s ∧ Memory.dense s.cp s.cpLen ∧ 8 ≤ s.cur ∧ s.cur ≤ s.inLen ∧ s.cpLen ≤ s.cur ∧
    s.fs = [] ∧ s.rp = [] ∧ s.y = 0#32 ∧ s.geo = Geometry.reset ∧ s.err = ErrorRegs.reset ∧ s.flags.unkFilt = false

/-- From S_INFLATE's success on: the header is supported (42_inflate_adapter.md R94, R95) and the geometry is derived from
it (R96); the payload taken came from the stream before the cursor (10_state.md R15, R20). -/
abbrev ImageOk (s : State) : Prop :=
  s.flags.sigOk = true ∧ s.flags.hdrValid = true ∧ s.hdr.width ≠ 0#32 ∧ s.hdr.height ≠ 0#32 ∧ s.hdr.bitDepth = 8#8 ∧
    bppOf s.hdr.colorMode = some s.geo.bpp ∧ s.geo.stride = s.hdr.width.toNat * s.geo.bpp.toNat ∧
    s.geo.expLen = s.hdr.height.toNat * (s.geo.stride + 1) ∧ s.err = ErrorRegs.reset ∧ s.cpLen ≤ s.cur

/-- What holds in each PHASE (40_stream_front.md R84). Nothing is said of the contents of a released buffer (20_memory.md
R57). -/
def PhaseOk (s : State) : Prop :=
  match s.phase with
  | .idle => s = State.resetIn s.env
  | .sig => s = startDecode s
  | .chunks => ParseOk s
  | .inflate => ParseOk s ∧ s.cur = s.inLen
  | .defilter =>
    ImageOk s ∧ s.cur ≤ s.inLen ∧ Memory.dense s.fs s.geo.expLen ∧ s.y.toNat < s.hdr.height.toNat ∧
      Memory.dense s.rp (s.y.toNat * s.geo.stride)
  | .done =>
    ImageOk s ∧ s.y = s.hdr.height ∧ Memory.dense s.rp (s.hdr.height.toNat * s.geo.stride)
  | .fault =>
    (∃ e : DecodeError, s.err.kind = e.kindCode ∧ s.err.sub = e.subCode) ∧ s.err.pos ≤ s.cur ∧ HeaderOk s ∧ s.y = 0#32 ∧
      s.flags.unkFilt = false ∧ s.cpLen ≤ s.cur

/-- The invariant of every run. It holds after reset and every step keeps it. -/
def State.Inv (s : State) : Prop :=
  InputOk s ∧ GeometryOk s ∧ Memory.wf s.cp ∧ Memory.wf s.fs ∧ Memory.wf s.rp ∧ PhaseOk s

/-! ## What the host owes -/

/-- The host's next move keeps its duties: it does not bind a stream while BUSY (70_reset_and_hazards.md R142), and it
starts a decode only with a stream bound (R141). -/
def HostKeepsDuties (s : State) : Prop :=
  (∀ bytes, s.env.host.head? = some (.bind bytes) → s.phase.busy = false) ∧
  (∀ value, s.env.host.head? = some (.write 0 value) → value.getLsbD 0 = true → value.getLsbD 1 = false →
    s.phase.busy = false → s.env.bound = true)

/-! ## Enabled instructions -/

/-- The phase in which the spec runs an instruction of this kind ("Enabled when", R77, R78, R93, R100); S_START may be
requested in any phase (R76, R145). -/
def enabledIn (i : Instr) (p : Phase) : Prop :=
  match i with
  | .sig _ => p = .sig
  | .ihdr _ => p = .chunks
  | .idat _ => p = .chunks
  | .iend _ => p = .chunks
  | .plte _ => p = .chunks
  | .other _ _ => p = .chunks
  | .none => p = .defilter
  | .sub => p = .defilter
  | .up => p = .defilter
  | .average => p = .defilter
  | .paeth => p = .defilter
  | .unknown _ => p = .defilter
  | .sStart => True
  | .sInflate => p = .inflate

/-- The chunk loop is running, IN is a sequence of bytes, and after LEN and TYPE there are `n` bytes at the cursor. -/
abbrev ChunkReady (s : State) (n : Nat) : Prop := s.phase = .chunks ∧ InputOk s ∧ s.cur + 8 + n ≤ s.inLen

/-- A row can run: FS holds all rows, RP the rows before Y, and a pixel has at least one byte. -/
abbrev RowReady (s : State) : Prop :=
  s.phase = .defilter ∧ s.y.toNat < s.hdr.height.toNat ∧ 0 < s.geo.bpp.toNat ∧
    Memory.dense s.fs (s.hdr.height.toNat * (s.geo.stride + 1)) ∧ Memory.dense s.rp (s.y.toNat * s.geo.stride)

/-- The host makes no move at this step: the block takes its own (log entry 2). -/
abbrev BlockMoves (s : State) : Prop := s.env.host.head? = none ∨ s.env.host.head? = some .wait

/-- The payload bytes an instruction's operation may read: its own chunk's (41_chunk_ops.md R86). -/
def payloadLength (i : Instr) : Nat :=
  match i with
  | .sig _ => 0
  | .ihdr _ => 13
  | .idat len => len.toNat
  | .iend _ => 0
  | .plte _ => 0
  | .other len _ => len.toNat
  | .none => 0
  | .sub => 0
  | .up => 0
  | .average => 0
  | .paeth => 0
  | .unknown _ => 0
  | .sStart => 0
  | .sInflate => 0

/-- The state with another stream bound. -/
def withInput (input : Memory) (s : State) : State := { s with env := { s.env with input := input } }

/-- The state with other values in COMPRESSION, FILTERMETHOD and INTERLACE. -/
def withMethods (compression filterMethod interlace : Byte) (s : State) : State :=
  { s with
    hdr := { s.hdr with compression := compression, filterMethod := filterMethod, interlace := interlace } }

/-! ## Results -/

/-- `t` is `s` with the error of the numbered kind and sub-cause taken at position `pos` (60_exceptions.md R130). The
contents of the released buffers are no longer defined (20_memory.md R57), so nothing is said of them. -/
def Faulted (kind sub : BitVec 3) (pos : Nat) (s t : State) : Prop :=
  ∃ cp fs rp,
    t = { s with phase := .fault, err := { kind := kind, sub := sub, pos := pos }, cp := cp, fs := fs, rp := rp }

/-- The machine takes that error. -/
def Raises (o : Host.Outcome State Fault Refusal) (kind sub : BitVec 3) (pos : Nat) (s : State) : Prop :=
  ∃ t, o = .next t ∧ Faulted kind sub pos s t

/-- The byte at an address, 0 where there is none. -/
def byteAt (m : Memory) (a : Nat) : Byte := (Memory.read m a).getD 0#8

/-- `raw(x, Y)` (20_memory.md R52). -/
def rawAt (s : State) (x : Nat) : Byte := byteAt s.fs (s.y.toNat * (s.geo.stride + 1) + 1 + x)

/-- `left` of `x` in row Y of the reconstructed bytes `rp` (43_defilter.md R103). -/
def leftAt (s : State) (rp : Memory) (x : Nat) : Byte :=
  if s.geo.bpp.toNat ≤ x then byteAt rp (s.y.toNat * s.geo.stride + x - s.geo.bpp.toNat) else 0#8

/-- `above` (R103). -/
def aboveAt (s : State) (rp : Memory) (x : Nat) : Byte :=
  if 0 < s.y.toNat then byteAt rp ((s.y.toNat - 1) * s.geo.stride + x) else 0#8

/-- `upperLeft` (R103). -/
def upperLeftAt (s : State) (rp : Memory) (x : Nat) : Byte :=
  if s.geo.bpp.toNat ≤ x ∧ 0 < s.y.toNat then byteAt rp ((s.y.toNat - 1) * s.geo.stride + x - s.geo.bpp.toNat) else 0#8

/-- The outcome `o` is that of one whole row from `s` (43_defilter.md R100, R114): a next state in which Y has moved on,
UNKFILT is `unk`, PHASE is DONE after the last row and unchanged before it, RP has the rows before Y as they were and in row
Y the bytes `recon rp x`; every other register and the environment are as before. FS is unchanged unless it is released. -/
def RowOutcome (s : State) (unk : Bool) (recon : Memory → Nat → Byte) (o : Host.Outcome State Fault Refusal) : Prop :=
  ∃ rp fs,
    o = .next { s with
      rp := rp
      fs := fs
      y := s.y + 1#32
      flags := { s.flags with unkFilt := unk }
      phase := if s.y + 1#32 = s.hdr.height then .done else .defilter } ∧
    (s.y + 1#32 ≠ s.hdr.height → fs = s.fs) ∧
    Memory.dense rp ((s.y.toNat + 1) * s.geo.stride) ∧
    (∀ a, a < s.y.toNat * s.geo.stride → Memory.read rp a = Memory.read s.rp a) ∧
    (∀ x, x < s.geo.stride → Memory.read rp (s.y.toNat * s.geo.stride + x) = some (recon rp x))

/-- The forward filter (43_defilter.md R117): the filtered byte `x` of row Y of the original bytes `orig`. -/
def filterByte (predict : Predictor) (s : State) (orig : Memory) (x : Nat) : Byte :=
  byteAt orig (s.y.toNat * s.geo.stride + x)
    - predict (leftAt s orig x) (aboveAt s orig x) (upperLeftAt s orig x)

end Sys2Proof.Machine
end

