-- ==== Sys2Proof/Certificates/Slice0/Obligations.lean ====
section
/-! DEFINITION. The statements for the provers, from the numbered rules of spec/. -/

open Sys2Proof Sys2Proof.Machine

/-! ## Encoding (30_encoding.md) -/

/-- Decoding what the encoder gives for a well-formed record gives it back, every operand at every value (R59, R60, R68,
R70). -/
def Obligations.DecodeOfEncode : Prop :=
  ∀ (i : Instr) (rest : List Byte), WellFormed i → i.format ≠ .unencoded →
    decode i.format (encode i ++ rest) = .ok (i, rest)

/-- Whatever is decoded is a well-formed record of that format, and its bytes are the ones the encoder gives: no two
records share bytes. -/
def Obligations.DecodedRecordReencodes : Prop :=
  ∀ (f : Format) (bytes rest : List Byte) (i : Instr), decode f bytes = .ok (i, rest) →
    WellFormed i ∧ i.format = f ∧ bytes = encode i ++ rest

/-- Words written out byte by byte from 30_encoding.md (R59, R60, R68, R69, R70). -/
def Obligations.WordsOfTheSpecDecode : Prop :=
  decode .sig [0x89#8, 0x50#8, 0x4E#8, 0x47#8, 0x0D#8, 0x0A#8, 0x1A#8, 0x0A#8] =
    .ok (.sig 0x89504E470D0A1A0A#64, []) ∧
  decode .chunk [0x00#8, 0x00#8, 0x00#8, 0x0D#8, 0x49#8, 0x48#8, 0x44#8, 0x52#8] = .ok (.ihdr 13#32, []) ∧
  decode .chunk [0x01#8, 0x02#8, 0x03#8, 0x04#8, 0x49#8, 0x44#8, 0x41#8, 0x54#8] = .ok (.idat 0x01020304#32, []) ∧
  decode .chunk [0x00#8, 0x00#8, 0x00#8, 0x00#8, 0x49#8, 0x45#8, 0x4E#8, 0x44#8] = .ok (.iend 0#32, []) ∧
  decode .chunk [0xFF#8, 0xFF#8, 0xFF#8, 0xFF#8, 0x50#8, 0x4C#8, 0x54#8, 0x45#8] = .ok (.plte 0xFFFFFFFF#32, []) ∧
  decode .chunk [0x00#8, 0x00#8, 0x00#8, 0x0C#8, 0x74#8, 0x45#8, 0x58#8, 0x74#8] =
    .ok (.other 12#32 0x74455874#32, []) ∧
  decode .chunk [0x00#8, 0x00#8, 0x00#8, 0x0D#8, 0x69#8, 0x68#8, 0x64#8, 0x72#8] =
    .ok (.other 13#32 0x69686472#32, []) ∧
  decode .row [0x00#8] = .ok (.none, []) ∧ decode .row [0x01#8] = .ok (.sub, []) ∧
  decode .row [0x02#8] = .ok (.up, []) ∧ decode .row [0x03#8] = .ok (.average, []) ∧
  decode .row [0x04#8] = .ok (.paeth, []) ∧ decode .row [0x05#8] = .ok (.unknown 5#8, []) ∧
  decode .row [0xFF#8] = .ok (.unknown 255#8, [])

/-- Too few bytes are rejected by name, and nothing else is: no value of an opcode field is illegal (R71, R72). -/
def Obligations.OnlyShortRecordsAreRejected : Prop :=
  ∀ bytes : List Byte,
    (bytes.length < 8 → decode .sig bytes = .error .shortSignature) ∧
    (bytes.length < 4 → decode .chunk bytes = .error .shortLength) ∧
    (4 ≤ bytes.length → bytes.length < 8 → decode .chunk bytes = .error .shortType) ∧
    (8 ≤ bytes.length → (∃ r, decode .sig bytes = .ok r) ∧ ∃ r, decode .chunk bytes = .ok r) ∧
    (1 ≤ bytes.length → ∃ r, decode .row bytes = .ok r)

/-- The chunk opcode map (R68), an exact match of all four bytes (R69): the tag bytes alone select the operation. -/
def Obligations.TypeSelectsTheChunkOperation : Prop :=
  ∀ l0 l1 l2 l3 t0 t1 t2 t3 : Byte, ∃ i, decode .chunk [l0, l1, l2, l3, t0, t1, t2, t3] = .ok (i, []) ∧
    ([t0, t1, t2, t3] = [0x49#8, 0x48#8, 0x44#8, 0x52#8] → i = .ihdr (be32 l0 l1 l2 l3)) ∧
    ([t0, t1, t2, t3] = [0x49#8, 0x44#8, 0x41#8, 0x54#8] → i = .idat (be32 l0 l1 l2 l3)) ∧
    ([t0, t1, t2, t3] = [0x49#8, 0x45#8, 0x4E#8, 0x44#8] → i = .iend (be32 l0 l1 l2 l3)) ∧
    ([t0, t1, t2, t3] = [0x50#8, 0x4C#8, 0x54#8, 0x45#8] → i = .plte (be32 l0 l1 l2 l3)) ∧
    ([t0, t1, t2, t3] ≠ [0x49#8, 0x48#8, 0x44#8, 0x52#8] → [t0, t1, t2, t3] ≠ [0x49#8, 0x44#8, 0x41#8, 0x54#8] →
      [t0, t1, t2, t3] ≠ [0x49#8, 0x45#8, 0x4E#8, 0x44#8] → [t0, t1, t2, t3] ≠ [0x50#8, 0x4C#8, 0x54#8, 0x45#8] →
      i = .other (be32 l0 l1 l2 l3) (be32 t0 t1 t2 t3))

/-! ## The step -/

/-- One step is `exec` of the record at the cursor (PHASE SIG and CHUNKS) or at the start of row Y (PHASE DEFILTER), of
S_INFLATE in PHASE INFLATE, and of S_START where the host writes CTRL so; `popMove` takes the host's move off its list
(00_scope.md R9, R10, 40_stream_front.md R84). -/
def Obligations.StepRunsTheDecodedInstruction : Prop :=
  ∀ (s : State) (i : Instr) (bytes rest : List Byte),
    (BlockMoves s → s.phase = .sig → s.cur + 8 ≤ s.inLen → Memory.readBytes s.env.input s.cur 8 = some bytes →
      decode .sig bytes = .ok (i, rest) → step s = exec i (popMove s)) ∧
    (BlockMoves s → s.phase = .chunks → s.cur + 8 ≤ s.inLen → Memory.readBytes s.env.input s.cur 8 = some bytes →
      decode .chunk bytes = .ok (i, rest) → step s = exec i (popMove s)) ∧
    (∀ f, BlockMoves s → s.phase = .defilter → Memory.read s.fs (s.y.toNat * (s.geo.stride + 1)) = some f →
      decode .row [f] = .ok (i, rest) → step s = exec i (popMove s)) ∧
    (BlockMoves s → s.phase = .inflate → step s = exec .sInflate (popMove s)) ∧
    (∀ value, s.env.host.head? = some (.write 0 value) → value.getLsbD 0 = true → value.getLsbD 1 = false →
      step s = exec .sStart (popMove s)) ∧
    popMove s = { s with env := { s.env with host := s.env.host.tail } }

/-- R79, R80, R84: where the stream ends in LEN or TYPE the loop ends without error and the bytes are consumed. -/
def Obligations.ShortLengthOrTypeEndsTheLoop : Prop :=
  ∀ s : State, BlockMoves s → s.phase = .chunks → InputOk s → s.cur ≤ s.inLen → s.inLen < s.cur + 8 →
    step s = .next { popMove s with cur := s.inLen, phase := .inflate }

/-- R77: fewer than 8 bytes where the signature is expected is TruncatedInputError(Signature) at position 0. -/
def Obligations.ShortSignatureFaults : Prop :=
  ∀ s : State, BlockMoves s → s.phase = .sig → InputOk s → s.cur ≤ s.inLen → s.inLen < s.cur + 8 →
    Raises (step s) 3#3 1#3 0 { popMove s with cur := s.inLen }

/-- R137, R133: in IDLE, DONE and FAULT the block does nothing of its own. -/
def Obligations.IdleDoneAndFaultRest : Prop :=
  ∀ s : State, BlockMoves s → s.phase = .idle ∨ s.phase = .done ∨ s.phase = .fault → step s = .next (popMove s)

/-- R133: only the host leaves FAULT, by a reset or by START. That the host's side stays as it is when the block is reset or
started is the model's choice (log entry 2). -/
def Obligations.FaultIsLeftOnlyByResetOrStart : Prop :=
  ∀ s t : State, s.phase = .fault → step s = .next t →
    t.phase = .fault ∨
    (t = State.resetIn (popMove s).env ∧
      (s.env.host.head? = some .hardReset ∨
        ∃ v, s.env.host.head? = some (.write 0 v) ∧ v.getLsbD 1 = true)) ∨
    (t = { State.resetIn (popMove s).env with phase := .sig } ∧
      ∃ v, s.env.host.head? = some (.write 0 v) ∧ v.getLsbD 0 = true ∧ v.getLsbD 1 = false)

/-- The block's part of the transfer table of R84: no other transfer exists. -/
def Obligations.PhaseTransfersFollowTheTable : Prop :=
  ∀ s t : State, BlockMoves s → step s = .next t →
    match s.phase with
    | .idle => t.phase = .idle
    | .sig => t.phase = .chunks ∨ t.phase = .fault
    | .chunks => t.phase = .chunks ∨ t.phase = .inflate ∨ t.phase = .fault
    | .inflate => t.phase = .defilter ∨ t.phase = .fault
    | .defilter => t.phase = .defilter ∨ t.phase = .done
    | .done => t.phase = .done
    | .fault => t.phase = .fault

/-! ## The host's side (10_state.md, 70_reset_and_hazards.md) -/

/-- R32, bit by bit, with the code of each PHASE (R14), and what a read of register 1 gives; a write of it is ignored (a move of the host, log entry 2). -/
def Obligations.StatusBits : Prop :=
  ∀ s : State,
    (statusWord s).getLsbD 0 = s.phase.busy ∧ (statusWord s).getLsbD 1 = s.phase.isDone ∧
    (statusWord s).getLsbD 2 = s.phase.isErr ∧ (statusWord s).getLsbD 3 = s.flags.sigOk ∧
    (statusWord s).getLsbD 4 = s.flags.hdrValid ∧ (statusWord s).getLsbD 5 = s.flags.iendSeen ∧
    (statusWord s).getLsbD 6 = s.flags.unkFilt ∧ (statusWord s).getLsbD 7 = false ∧
    (statusWord s).extractLsb' 8 3 = s.phase.code ∧
    ((s.phase = .idle → (statusWord s).extractLsb' 8 3 = 0#3) ∧ (s.phase = .sig → (statusWord s).extractLsb' 8 3 = 1#3) ∧
      (s.phase = .chunks → (statusWord s).extractLsb' 8 3 = 2#3) ∧
      (s.phase = .inflate → (statusWord s).extractLsb' 8 3 = 3#3) ∧
      (s.phase = .defilter → (statusWord s).extractLsb' 8 3 = 4#3) ∧
      (s.phase = .done → (statusWord s).extractLsb' 8 3 = 5#3) ∧
      (s.phase = .fault → (statusWord s).extractLsb' 8 3 = 6#3)) ∧
    (∀ k, 11 ≤ k → (statusWord s).getLsbD k = false) ∧
    hostRead s 1 = (statusWord s).toNat ∧
    ∀ v, s.env.host.head? = some (.write 1 v) → step s = .next (popMove s)

/-- R25: exactly one of IDLE, BUSY, DONE, ERR holds. -/
def Obligations.OneOfIdleBusyDoneErr : Prop :=
  ∀ s : State,
    (s.phase.busy = true ↔ s.phase = .sig ∨ s.phase = .chunks ∨ s.phase = .inflate ∨ s.phase = .defilter) ∧
    (s.phase.isDone = true ↔ s.phase = .done) ∧ (s.phase.isErr = true ↔ s.phase = .fault) ∧
    (s.phase = .idle ∨ s.phase.busy = true ∨ s.phase.isDone = true ∨ s.phase.isErr = true) ∧
    ¬(s.phase = .idle ∧ s.phase.busy = true) ∧ ¬(s.phase = .idle ∧ s.phase.isDone = true) ∧
    ¬(s.phase = .idle ∧ s.phase.isErr = true) ∧ ¬(s.phase.busy = true ∧ s.phase.isDone = true) ∧
    ¬(s.phase.busy = true ∧ s.phase.isErr = true) ∧ ¬(s.phase.isDone = true ∧ s.phase.isErr = true)

/-- R34: what each register number reads, that a write to any number but 0 is ignored, and that every number reads 0 after
reset. The write is a move of the host (log entry 2). -/
def Obligations.RegisterMap : Prop :=
  ∀ s : State,
    hostRead s 0 = 0 ∧ hostRead s 1 = (statusWord s).toNat ∧ hostRead s 2 = s.err.kind.toNat ∧
    hostRead s 3 = s.err.sub.toNat ∧ hostRead s 4 = s.err.pos ∧ hostRead s 5 = s.cur ∧
    hostRead s 6 = s.hdr.width.toNat ∧ hostRead s 7 = s.hdr.height.toNat ∧ hostRead s 8 = s.hdr.bitDepth.toNat ∧
    hostRead s 9 = s.hdr.colorMode.toNat ∧ hostRead s 10 = s.hdr.compression.toNat ∧
    hostRead s 11 = s.hdr.filterMethod.toNat ∧ hostRead s 12 = s.hdr.interlace.toNat ∧ hostRead s 13 = s.cpLen ∧
    hostRead s 14 = s.geo.bpp.toNat ∧ hostRead s 15 = s.geo.stride ∧ hostRead s 16 = s.geo.expLen ∧
    hostRead s 17 = s.y.toNat ∧ (∀ n, 17 < n → hostRead s n = 0) ∧
    (∀ n v, n ≠ 0 → s.env.host.head? = some (.write n v) → step s = .next (popMove s)) ∧
    ∀ n, hostRead State.reset n = 0

/-- R31: RESET wins over START; bits 31:2 are ignored; a write with neither bit does nothing; a START while BUSY is
ignored, else it is the step S_START. R40, R141: the host binds a stream while not BUSY, and IN is then those bytes from
address 0 on and nothing else, whatever it was; no register of the block changes. That a bind while BUSY (R142: the host must
not) is refused is the model's choice (log entry 7, after U7). The write and the bind are moves of the host (log entry 2); that
the host's side stays as it is when the block is reset, and the field `bound` (log entry 1), are the model's choice too. -/
def Obligations.CtrlCommands : Prop :=
  ∀ s : State,
    (∀ value : Word32, s.env.host.head? = some (.write 0 value) →
      (value.getLsbD 1 = true → step s = .next (State.resetIn (popMove s).env)) ∧
      (value.getLsbD 1 = false → value.getLsbD 0 = false → step s = .next (popMove s)) ∧
      (value.getLsbD 1 = false → value.getLsbD 0 = true → s.phase.busy = true → step s = .next (popMove s)) ∧
      (value.getLsbD 1 = false → value.getLsbD 0 = true → s.phase.busy = false → s.env.bound = true →
        step s = .next { State.resetIn (popMove s).env with phase := .sig })) ∧
    hostRead s 0 = 0 ∧
    ∀ bytes : List Byte, s.env.host.head? = some (.bind bytes) →
      (s.phase.busy = false →
        ∃ input, step s = .next
            { popMove s with env := { (popMove s).env with input := input, bound := true } } ∧
          input = Memory.ofBytes 0 bytes ∧ Memory.dense input bytes.length ∧
          ∀ a, Memory.read input a = bytes[a]?) ∧
      (s.phase.busy = true → step s = .refused .inputChangedWhileBusy)

/-- R76 with the values of R37: the completion of S_START. Every register, flag and buffer takes its reset value whatever
the last decode left, PHASE is SIG, STATUS reads 0x00000101. That the host's side stays as it is is the model's choice (log
entry 2). -/
def Obligations.SStartBeginsADecode : Prop :=
  ∀ s : State, s.phase.busy = false → s.env.bound = true →
    ∃ t, exec .sStart s = .next t ∧ t.phase = .sig ∧ t.cur = 0 ∧ t.y = 0#32 ∧
      t.hdr.width = 0#32 ∧ t.hdr.height = 0#32 ∧ t.hdr.bitDepth = 0#8 ∧ t.hdr.colorMode = 0#8 ∧
      t.hdr.compression = 0#8 ∧ t.hdr.filterMethod = 0#8 ∧ t.hdr.interlace = 0#8 ∧
      t.geo.bpp = 0#3 ∧ t.geo.stride = 0 ∧ t.geo.expLen = 0 ∧ t.cpLen = 0 ∧ t.cp = [] ∧ t.fs = [] ∧ t.rp = [] ∧
      t.flags.sigOk = false ∧ t.flags.hdrValid = false ∧ t.flags.iendSeen = false ∧ t.flags.unkFilt = false ∧
      t.err.kind = 0#3 ∧ t.err.sub = 0#3 ∧ t.err.pos = 0 ∧ t.env = s.env ∧ statusWord t = 0x00000101#32

/-- R145: a START while BUSY changes no state; and a START with no stream bound is refused (the model's reading of R141
and U8, Refusal.startWithoutStream). -/
def Obligations.StartWhileBusyOrUnbound : Prop :=
  ∀ s : State,
    (s.phase.busy = true → exec .sStart s = .next s) ∧
    (s.phase.busy = false → s.env.bound = false → exec .sStart s = .refused .startWithoutStream)

/-- R37: the state after reset, which is the block's whatever the environment. (What stands in `env`, the host's side, is no part of the rule.) -/
def Obligations.ResetState : Prop :=
  State.reset.phase = .idle ∧ State.reset.cur = 0 ∧ State.reset.y = 0#32 ∧ State.reset.hdr.width = 0#32 ∧
  State.reset.hdr.height = 0#32 ∧ State.reset.hdr.bitDepth = 0#8 ∧ State.reset.hdr.colorMode = 0#8 ∧
  State.reset.hdr.compression = 0#8 ∧ State.reset.hdr.filterMethod = 0#8 ∧ State.reset.hdr.interlace = 0#8 ∧
  State.reset.geo.bpp = 0#3 ∧ State.reset.geo.stride = 0 ∧ State.reset.geo.expLen = 0 ∧ State.reset.cpLen = 0 ∧
  State.reset.cp = [] ∧ State.reset.fs = [] ∧ State.reset.rp = [] ∧ State.reset.flags.sigOk = false ∧
  State.reset.flags.hdrValid = false ∧ State.reset.flags.iendSeen = false ∧ State.reset.flags.unkFilt = false ∧
  State.reset.err.kind = 0#3 ∧ State.reset.err.sub = 0#3 ∧ State.reset.err.pos = 0 ∧
  statusWord State.reset = 0x00000000#32 ∧ ∀ env, State.resetIn env = { State.reset with env := env }

/-- R137, R138: a hard reset and a write of CTRL with RESET = 1 give the reset values, in any phase. That the host's side
stays as it is is the model's choice (log entry 2). -/
def Obligations.HardAndSoftResetAgree : Prop :=
  ∀ s : State,
    (s.env.host.head? = some .hardReset → step s = .next (State.resetIn (popMove s).env)) ∧
    (∀ v, v.getLsbD 1 = true → s.env.host.head? = some (.write 0 v) →
      step s = .next (State.resetIn (popMove s).env))

/-- R118, R144, R39: RP is readable and there is an output only when PHASE = DONE. -/
def Obligations.OutputOnlyWhenDone : Prop :=
  ∀ s : State,
    (s.phase ≠ .done → output s = none ∧ ∀ a, hostReadRp s a = none) ∧
    (s.phase = .done → (∀ a, hostReadRp s a = Memory.read s.rp a) ∧
      output s = some { width := s.hdr.width, height := s.hdr.height, bpp := s.geo.bpp, rp := s.rp, flags := s.flags })

/-- No instruction writes IN or anything else of the host's side (20_memory.md R39, R40), nor the fixed capacities; only
S_INFLATE counts its call. -/
def Obligations.InstructionsLeaveTheHostsSide : Prop :=
  ∀ (i : Instr) (s t : State), exec i s = .next t →
    t.env = s.env ∨ (i = .sInflate ∧ t.env = { s.env with calls := s.env.calls + 1 })

/-! ## Stream reads and errors -/

/-- R43, `StreamRead(n)`. -/
def Obligations.StreamReadRule : Prop :=
  ∀ (s : State) (n : Nat), InputOk s → s.cur ≤ s.inLen →
    (s.cur + n ≤ s.inLen → ∃ b, streamRead n s = .bytes b { s with cur := s.cur + n } ∧ b.length = n ∧
      ∀ k, k < n → Memory.read s.env.input (s.cur + k) = b[k]?) ∧
    (s.inLen < s.cur + n → streamRead n s = .short { s with cur := s.inLen }) ∧
    streamRead 0 s = .bytes [] s

/-- R130 with R131: what `raise` records and that every register written before keeps its value. -/
def Obligations.RaiseRecordsTheError : Prop :=
  ∀ (e : DecodeError) (pos : Nat) (s : State), Faulted e.kindCode e.subCode pos s (raise e pos s)

/-- The codes of R121 to R126. -/
def Obligations.ErrorCodes : Prop :=
  [DecodeError.badSignature, .invalidDimensions, .duplicateHeader, .missingHeader, .invalidChunkLength, .paletteChunk,
    .colorMode, .bitDepth, .truncatedSignature, .truncatedPayload, .truncatedChecksum, .serviceFailure, .lengthMismatch,
    .payloadCapacity, .scanlineCapacity].map (fun e => (e.kindCode.toNat, e.subCode.toNat)) =
  [(1, 1), (1, 2), (1, 3), (1, 4), (1, 5), (2, 1), (2, 2), (2, 3), (3, 1), (3, 2), (3, 3), (4, 1), (4, 2), (5, 1), (5, 2)]

/-! ## The signature record (40_stream_front.md R77) -/

/-- The completion of SIG: a matching signature. -/
def Obligations.SignatureAccepted : Prop :=
  ∀ s : State, s.phase = .sig → InputOk s → s.cur + 8 ≤ s.inLen →
    exec (.sig 0x89504E470D0A1A0A#64) s =
      .next { s with cur := s.cur + 8, phase := .chunks, flags := { s.flags with sigOk := true } }

/-- A signature that differs anywhere, or is short, is an error at position 0; SIG_OK stays as it was. -/
def Obligations.SignatureRefused : Prop :=
  ∀ (s : State) (magic : Word64), s.phase = .sig → InputOk s → s.cur ≤ s.inLen →
    (s.cur + 8 ≤ s.inLen → magic ≠ 0x89504E470D0A1A0A#64 →
      Raises (exec (.sig magic) s) 1#3 1#3 0 { s with cur := s.cur + 8 }) ∧
    (s.inLen < s.cur + 8 → Raises (exec (.sig magic) s) 3#3 1#3 0 { s with cur := s.inLen })

/-! ## The chunk operations (41_chunk_ops.md) -/

/-- The completion of IHDR (R87): the seven header registers take the payload's fields (30_encoding.md R62), HDR_VALID
becomes 1, the cursor passes the 25 bytes of the chunk, nothing else changes. -/
def Obligations.IhdrLatchesTheHeader : Prop :=
  ∀ (s : State) (w0 w1 w2 w3 h0 h1 h2 h3 depth color m0 m1 m2 : Byte), ChunkReady s 17 → s.flags.hdrValid = false →
    Memory.readBytes s.env.input (s.cur + 8) 13 =
      some [w0, w1, w2, w3, h0, h1, h2, h3, depth, color, m0, m1, m2] →
    be32 w0 w1 w2 w3 ≠ 0#32 → be32 h0 h1 h2 h3 ≠ 0#32 →
    exec (.ihdr 13#32) s = .next { s with
      cur := s.cur + 25
      hdr :=
        { width := be32 w0 w1 w2 w3, height := be32 h0 h1 h2 h3, bitDepth := depth, colorMode := color,
          compression := m0, filterMethod := m1, interlace := m2 }
      flags := { s.flags with hdrValid := true } }

/-- IHDR's errors, in the order of R127: DuplicateHeader, InvalidChunkLength, TruncatedInputError(Payload),
InvalidDimensions; each leaves the header registers as they were. -/
def Obligations.IhdrErrors : Prop :=
  ∀ (s : State) (len : Word32), ChunkReady s 0 →
    (s.flags.hdrValid = true → Raises (exec (.ihdr len) s) 1#3 3#3 s.cur { s with cur := s.cur + 8 }) ∧
    (s.flags.hdrValid = false → len ≠ 13#32 →
      Raises (exec (.ihdr len) s) 1#3 5#3 s.cur { s with cur := s.cur + 8 }) ∧
    (s.flags.hdrValid = false → len = 13#32 → s.inLen < s.cur + 21 →
      Raises (exec (.ihdr len) s) 3#3 2#3 s.cur { s with cur := s.inLen }) ∧
    (∀ w0 w1 w2 w3 h0 h1 h2 h3 depth color m0 m1 m2 : Byte, s.flags.hdrValid = false → len = 13#32 →
      s.cur + 21 ≤ s.inLen →
      Memory.readBytes s.env.input (s.cur + 8) 13 =
        some [w0, w1, w2, w3, h0, h1, h2, h3, depth, color, m0, m1, m2] →
      be32 w0 w1 w2 w3 = 0#32 ∨ be32 h0 h1 h2 h3 = 0#32 →
      Raises (exec (.ihdr len) s) 1#3 2#3 s.cur { s with cur := s.cur + 21 })

/-- The completion of IDAT (R88): the payload is appended to CP and every other byte of CP is as before; CP_LEN grows by
L; the cursor passes the chunk; nothing else changes. -/
def Obligations.IdatAppendsThePayload : Prop :=
  ∀ (s : State) (len : Word32) (p : List Byte), ChunkReady s (len.toNat + 4) → s.flags.hdrValid = true →
    (∀ cap, s.env.cpCap = some cap → s.cpLen + len.toNat ≤ cap) →
    Memory.readBytes s.env.input (s.cur + 8) len.toNat = some p →
    ∃ cp, exec (.idat len) s =
        .next { s with cur := s.cur + 12 + len.toNat, cp := cp, cpLen := s.cpLen + len.toNat } ∧
      (∀ k, k < len.toNat → Memory.read cp (s.cpLen + k) = p[k]?) ∧
      (∀ a, a < s.cpLen ∨ s.cpLen + len.toNat ≤ a → Memory.read cp a = Memory.read s.cp a)

/-- IDAT's errors, in the order of R127: MissingHeader, PayloadCapacity, TruncatedInputError(Payload); CP_LEN is as
before. -/
def Obligations.IdatErrors : Prop :=
  ∀ (s : State) (len : Word32), ChunkReady s 0 →
    (s.flags.hdrValid = false → Raises (exec (.idat len) s) 1#3 4#3 s.cur { s with cur := s.cur + 8 }) ∧
    (∀ cap, s.flags.hdrValid = true → s.env.cpCap = some cap → cap < s.cpLen + len.toNat →
      Raises (exec (.idat len) s) 5#3 1#3 s.cur { s with cur := s.cur + 8 }) ∧
    (s.flags.hdrValid = true → (∀ cap, s.env.cpCap = some cap → s.cpLen + len.toNat ≤ cap) →
      s.inLen < s.cur + 8 + len.toNat → Raises (exec (.idat len) s) 3#3 2#3 s.cur { s with cur := s.inLen })

/-- R89: the completion of IEND, and its error on a length other than 0. -/
def Obligations.IendMarksTheEnd : Prop :=
  ∀ (s : State) (len : Word32),
    (ChunkReady s 4 → len = 0#32 →
      exec (.iend len) s = .next { s with cur := s.cur + 12, flags := { s.flags with iendSeen := true } }) ∧
    (ChunkReady s 0 → len ≠ 0#32 → Raises (exec (.iend len) s) 1#3 5#3 s.cur { s with cur := s.cur + 8 })

/-- R90: PLTE is refused at dispatch whatever its length and whatever the block holds: no payload byte is read. -/
def Obligations.PlteIsRefused : Prop :=
  ∀ (s : State) (len : Word32), ChunkReady s 0 →
    Raises (exec (.plte len) s) 2#3 1#3 s.cur { s with cur := s.cur + 8 }

/-- R91: the completion of OTHER, which changes no register but CUR, and its one error. -/
def Obligations.OtherIsSkipped : Prop :=
  ∀ (s : State) (len tag : Word32),
    (ChunkReady s (len.toNat + 4) → exec (.other len tag) s = .next { s with cur := s.cur + 12 + len.toNat }) ∧
    (ChunkReady s 0 → s.inLen < s.cur + 8 + len.toNat →
      Raises (exec (.other len tag) s) 3#3 2#3 s.cur { s with cur := s.inLen })

/-- R83: a checksum of fewer than 4 bytes is TruncatedInputError(Checksum); what the operation wrote stays written. -/
def Obligations.ShortChecksumFaults : Prop :=
  ∀ s : State, ChunkReady s 0 →
    (∀ len tag : Word32, s.cur + 8 + len.toNat ≤ s.inLen → s.inLen < s.cur + 12 + len.toNat →
      Raises (exec (.other len tag) s) 3#3 3#3 s.cur { s with cur := s.inLen }) ∧
    (s.inLen < s.cur + 12 →
      Raises (exec (.iend 0#32) s) 3#3 3#3 s.cur
        { s with cur := s.inLen, flags := { s.flags with iendSeen := true } }) ∧
    (∀ len : Word32, s.flags.hdrValid = true → (∀ cap, s.env.cpCap = some cap → s.cpLen + len.toNat ≤ cap) →
      s.cur + 8 + len.toNat ≤ s.inLen → s.inLen < s.cur + 12 + len.toNat →
      Raises (exec (.idat len) s) 3#3 3#3 s.cur { s with cur := s.inLen, cpLen := s.cpLen + len.toNat }) ∧
    (∀ w0 w1 w2 w3 h0 h1 h2 h3 depth color m0 m1 m2 : Byte, s.flags.hdrValid = false →
      s.cur + 21 ≤ s.inLen → s.inLen < s.cur + 25 →
      Memory.readBytes s.env.input (s.cur + 8) 13 =
        some [w0, w1, w2, w3, h0, h1, h2, h3, depth, color, m0, m1, m2] →
      be32 w0 w1 w2 w3 ≠ 0#32 → be32 h0 h1 h2 h3 ≠ 0#32 →
      Raises (exec (.ihdr 13#32) s) 3#3 3#3 s.cur { s with
        cur := s.inLen
        hdr :=
          { width := be32 w0 w1 w2 w3, height := be32 h0 h1 h2 h3, bitDepth := depth, colorMode := color,
            compression := m0, filterMethod := m1, interlace := m2 }
        flags := { s.flags with hdrValid := true } })

/-- R83, R73, R86: what a chunk does depends on no byte of the stream but its own payload; in particular the four
checksum bytes may be anything. -/
def Obligations.ChunkReadsOnlyItsPayload : Prop :=
  ∀ (i : Instr) (s t : State) (input : Memory), i.format = .chunk → InputOk s → Memory.dense input s.inLen →
    (∀ a, s.cur + 8 ≤ a → a < s.cur + 8 + payloadLength i → Memory.read input a = Memory.read s.env.input a) →
    exec i s = .next t → exec i (withInput input s) = .next (withInput input t)

/-- R92 (b), R51: two IDAT chunks leave the same CP and CP_LEN as one that carries both payloads, wherever the split. -/
def Obligations.SplitIdatGivesTheSamePayload : Prop :=
  ∀ (s one first two : State) (input : Memory) (len len1 len2 : Word32) (p q : List Byte),
    len.toNat = len1.toNat + len2.toNat →
    Memory.readBytes s.env.input (s.cur + 8) len.toNat = some (p ++ q) →
    Memory.readBytes input (s.cur + 8) len1.toNat = some p →
    Memory.readBytes input (s.cur + 12 + len1.toNat + 8) len2.toNat = some q →
    exec (.idat len) s = .next one → one.phase = .chunks →
    exec (.idat len1) (withInput input s) = .next first → first.phase = .chunks →
    exec (.idat len2) first = .next two → two.phase = .chunks →
    two.cp = one.cp ∧ two.cpLen = one.cpLen

/-! ## The inflate adapter (42_inflate_adapter.md) -/

/-- The completion of S_INFLATE (R93, R95, R96, R98, R99), for any answer of the service of the expected length: geometry
exact, FS the answer, Y 0, PHASE DEFILTER; CP is released (its contents are no longer defined) and the call is counted (the
model's own field, log entry 4). -/
def Obligations.SInflateFillsTheScanlines : Prop :=
  ∀ (s : State) (bpp : BitVec 3) (compressed answer : List Byte), s.phase = .inflate → s.flags.hdrValid = true →
    s.hdr.bitDepth = 8#8 → (s.hdr.colorMode = 6#8 ∧ bpp = 4#3 ∨ s.hdr.colorMode = 2#8 ∧ bpp = 3#3) → s.fs = [] →
    (∀ cap, s.env.fsCap = some cap → s.hdr.height.toNat * (s.hdr.width.toNat * bpp.toNat + 1) ≤ cap) →
    Memory.readBytes s.cp 0 s.cpLen = some compressed →
    askService s.env compressed (s.hdr.height.toNat * (s.hdr.width.toNat * bpp.toNat + 1)) = .ok answer →
    answer.length = s.hdr.height.toNat * (s.hdr.width.toNat * bpp.toNat + 1) →
    ∃ cp fs, exec .sInflate s = .next { s with
        geo :=
          { bpp := bpp, stride := s.hdr.width.toNat * bpp.toNat,
            expLen := s.hdr.height.toNat * (s.hdr.width.toNat * bpp.toNat + 1) }
        cp := cp, fs := fs, y := 0#32, phase := .defilter
        env := { s.env with calls := s.env.calls + 1 } } ∧
      ∀ a, Memory.read fs a = answer[a]?

/-- The checks of S_INFLATE before the service is called, in the order of R93 (R94, R95, R97): each records the final
cursor; BPP, STRIDE and EXP_LEN are written before the capacity check. -/
def Obligations.SInflateChecks : Prop :=
  ∀ s : State, s.phase = .inflate →
    (s.flags.hdrValid = false → Raises (exec .sInflate s) 1#3 4#3 s.cur s) ∧
    (s.flags.hdrValid = true → s.hdr.bitDepth ≠ 8#8 → Raises (exec .sInflate s) 2#3 3#3 s.cur s) ∧
    (s.flags.hdrValid = true → s.hdr.bitDepth = 8#8 → s.hdr.colorMode ≠ 6#8 → s.hdr.colorMode ≠ 2#8 →
      Raises (exec .sInflate s) 2#3 2#3 s.cur s) ∧
    (∀ (bpp : BitVec 3) (cap : Nat), s.flags.hdrValid = true → s.hdr.bitDepth = 8#8 →
      (s.hdr.colorMode = 6#8 ∧ bpp = 4#3 ∨ s.hdr.colorMode = 2#8 ∧ bpp = 3#3) → s.env.fsCap = some cap →
      cap < s.hdr.height.toNat * (s.hdr.width.toNat * bpp.toNat + 1) →
      Raises (exec .sInflate s) 5#3 2#3 s.cur { s with
        geo :=
          { bpp := bpp, stride := s.hdr.width.toNat * bpp.toNat,
            expLen := s.hdr.height.toNat * (s.hdr.width.toNat * bpp.toNat + 1) } })

/-- R99: a failing service is ServiceFailure; an answer shorter or longer than EXP_LEN is LengthMismatch: it is neither
truncated nor padded. -/
def Obligations.SInflateAnswerErrors : Prop :=
  ∀ (s : State) (bpp : BitVec 3) (compressed : List Byte), s.phase = .inflate → s.flags.hdrValid = true →
    s.hdr.bitDepth = 8#8 → (s.hdr.colorMode = 6#8 ∧ bpp = 4#3 ∨ s.hdr.colorMode = 2#8 ∧ bpp = 3#3) →
    (∀ cap, s.env.fsCap = some cap → s.hdr.height.toNat * (s.hdr.width.toNat * bpp.toNat + 1) ≤ cap) →
    Memory.readBytes s.cp 0 s.cpLen = some compressed →
    (askService s.env compressed (s.hdr.height.toNat * (s.hdr.width.toNat * bpp.toNat + 1)) = .fail →
      Raises (exec .sInflate s) 4#3 1#3 s.cur { s with
        geo :=
          { bpp := bpp, stride := s.hdr.width.toNat * bpp.toNat,
            expLen := s.hdr.height.toNat * (s.hdr.width.toNat * bpp.toNat + 1) }
        env := { s.env with calls := s.env.calls + 1 } }) ∧
    (∀ answer : List Byte,
      askService s.env compressed (s.hdr.height.toNat * (s.hdr.width.toNat * bpp.toNat + 1)) = .ok answer →
      answer.length ≠ s.hdr.height.toNat * (s.hdr.width.toNat * bpp.toNat + 1) →
      Raises (exec .sInflate s) 4#3 2#3 s.cur { s with
        geo :=
          { bpp := bpp, stride := s.hdr.width.toNat * bpp.toNat,
            expLen := s.hdr.height.toNat * (s.hdr.width.toNat * bpp.toNat + 1) }
        env := { s.env with calls := s.env.calls + 1 } })

/-! ## The row operations (43_defilter.md) -/

/-- R105, R100, R114: NONE copies the row. -/
def Obligations.NoneCopiesTheRow : Prop :=
  ∀ s : State, RowReady s → RowOutcome s s.flags.unkFilt (fun _ x => rawAt s x) (exec .none s)

/-- R106: SUB adds the reconstructed byte one pixel to the left. -/
def Obligations.SubAddsLeft : Prop :=
  ∀ s : State, RowReady s →
    RowOutcome s s.flags.unkFilt (fun rp x => rawAt s x + leftAt s rp x) (exec .sub s)

/-- R107: UP adds the byte above. -/
def Obligations.UpAddsAbove : Prop :=
  ∀ s : State, RowReady s →
    RowOutcome s s.flags.unkFilt (fun rp x => rawAt s x + aboveAt s rp x) (exec .up s)

/-- R108, R113: AVERAGE adds half of the exact sum of left and above, rounded down. -/
def Obligations.AverageAddsTheHalfSum : Prop :=
  ∀ s : State, RowReady s →
    RowOutcome s s.flags.unkFilt
      (fun rp x => rawAt s x + BitVec.ofNat 8 (((leftAt s rp x).toNat + (aboveAt s rp x).toNat) / 2)) (exec .average s)

/-- R109: PAETH adds the Paeth predictor of the three neighbours. -/
def Obligations.PaethAddsThePredictor : Prop :=
  ∀ s : State, RowReady s →
    RowOutcome s s.flags.unkFilt
      (fun rp x => rawAt s x + predictPaeth (leftAt s rp x) (aboveAt s rp x) (upperLeftAt s rp x)) (exec .paeth s)

/-- R110: UNKNOWN copies the row and sets UNKFILT, whatever the filter-type byte. -/
def Obligations.UnknownCopiesAndFlags : Prop :=
  ∀ (s : State) (f : Byte), RowReady s → RowOutcome s true (fun _ x => rawAt s x) (exec (.unknown f) s)

/-- R112: the predictor is whichever of left, above, upperLeft is closest on the integers to left + above - upperLeft;
left wins every tie it is part of, above wins a tie with upperLeft. The rule's own check values follow. -/
def Obligations.PaethPicksTheClosest : Prop :=
  ∀ a b c : Byte,
    let dist := fun v : Byte => ((a.toNat : Int) + b.toNat - c.toNat - v.toNat).natAbs
    let r := predictPaeth a b c
    (r = a ∨ r = b ∨ r = c) ∧ dist r ≤ dist a ∧ dist r ≤ dist b ∧ dist r ≤ dist c ∧
    (dist a ≤ dist b → dist a ≤ dist c → r = a) ∧
    (dist b < dist a → dist b ≤ dist c → r = b) ∧
    (dist c < dist a → dist c < dist b → r = c) ∧
    predictPaeth 0#8 0#8 0#8 = 0#8 ∧ predictPaeth 10#8 20#8 15#8 = 15#8 ∧ predictPaeth 3#8 0#8 1#8 = 3#8 ∧
    predictPaeth 0#8 3#8 1#8 = 3#8 ∧ predictPaeth 200#8 100#8 10#8 = 200#8

/-- R113: the sum of AVERAGE's predictor is exact before it is halved. -/
def Obligations.AverageIsExact : Prop :=
  (∀ l a u : Byte,
    (predictAverage l a u).toNat = (l.toNat + a.toNat) / 2 ∧
    (predictAverage l a u).toNat = (l.toNat + a.toNat) >>> 1 ∧
    l.toNat + a.toNat ≤ 510 ∧ (predictAverage l a u).toNat ≤ 255) ∧
  ∀ u : Byte, predictAverage 200#8 100#8 u = 150#8 ∧ predictAverage 200#8 100#8 u ≠ 22#8

/-- R116: (a) in row 0 UP is NONE, PAETH is SUB, and the predictor of AVERAGE is half of left; (b) where left and upperLeft
are 0, SUB predicts as NONE, PAETH as UP, and AVERAGE half of above; (c) where all three are 0, every predictor is 0. -/
def Obligations.EdgeEquivalences : Prop :=
  (∀ s : State, s.y = 0#32 → exec .up s = exec .none s ∧ exec .paeth s = exec .sub s) ∧
  (∀ l : Byte, (predictAverage l 0#8 0#8).toNat = l.toNat / 2) ∧
  (∀ a : Byte, predictSub 0#8 a 0#8 = predictNone 0#8 a 0#8 ∧ predictPaeth 0#8 a 0#8 = predictUp 0#8 a 0#8 ∧
    (predictAverage 0#8 a 0#8).toNat = a.toNat / 2) ∧
  ∀ f : Byte, predictorOf f 0#8 0#8 0#8 = 0#8

/-- R115: a row depends on no row of FS after its own. -/
def Obligations.RowsAreCausal : Prop :=
  ∀ (i : Instr) (s t : State) (fs : Memory), i.format = .row → RowReady s →
    Memory.dense fs (s.hdr.height.toNat * (s.geo.stride + 1)) →
    (∀ a, a < (s.y.toNat + 1) * (s.geo.stride + 1) → Memory.read fs a = Memory.read s.fs a) →
    exec i s = .next t → ∃ t', exec i { s with fs := fs } = .next t' ∧ t'.rp = t.rp ∧ t'.flags = t.flags

/-- R117 (b): reconstruction is a left inverse of the forward filter. From row 0, where row y of FS is the original row
filtered with a type 0 to 4 of its own, HEIGHT steps with a host that only waits end in DONE with RP the original bytes. -/
def Obligations.ReconstructionInvertsFiltering : Prop :=
  ∀ (s : State) (orig : Memory) (ftype : Nat → Byte),
    s.env.host = [] → RowReady s → s.y = 0#32 → (∀ y, (ftype y).toNat ≤ 4) →
    Memory.dense orig (s.hdr.height.toNat * s.geo.stride) →
    (∀ y, y < s.hdr.height.toNat → Memory.read s.fs (y * (s.geo.stride + 1)) = some (ftype y)) →
    (∀ y x, y < s.hdr.height.toNat → x < s.geo.stride →
      rawAt { s with y := BitVec.ofNat 32 y } x =
        filterByte (predictorOf (ftype y)) { s with y := BitVec.ofNat 32 y } orig x) →
    ∃ t, Host.Core.run core s.hdr.height.toNat s = .next t ∧ t.phase = .done ∧
      ∀ a, a < s.hdr.height.toNat * s.geo.stride → Memory.read t.rp a = Memory.read orig a

/-! ## The whole machine -/

/-- The invariant holds after reset. (That IN is the empty sequence before the host binds a stream is the model's choice, log
entry 1.) -/
def Obligations.ResetMeetsTheInvariant : Prop := State.Inv State.reset

/-- Every instruction keeps the invariant, from any state that meets it, whether or not it is the one `step` would run. -/
def Obligations.InstructionsKeepTheInvariant : Prop :=
  ∀ (i : Instr) (s t : State), State.Inv s → exec i s = .next t → State.Inv t

/-- Every step keeps the invariant, the host's moves (log entry 2) included. -/
def Obligations.StepKeepsTheInvariant : Prop :=
  ∀ s t : State, State.Inv s → step s = .next t → State.Inv t

/-- From a state that meets the invariant every enabled instruction answers a next state: no access misses, and no
instruction but S_START ever stops the machine. -/
def Obligations.EnabledInstructionsComplete : Prop :=
  ∀ (i : Instr) (s : State), State.Inv s → enabledIn i s.phase → i ≠ .sStart → ∃ t, exec i s = .next t

/-- From a state that meets the invariant, under a host that keeps its duties, every step answers a next state. -/
def Obligations.StepAlwaysAnswers : Prop :=
  ∀ s : State, State.Inv s → HostKeepsDuties s → ∃ t, step s = .next t

/-- R85: with a host that only waits, a started decode ends in DONE or FAULT within the rule's bound (less its first step,
S_START, already taken; the rule's bound is 3 + floor((N - 8) / 12) + 1 + HEIGHT). -/
def Obligations.EveryDecodeEnds : Prop :=
  ∀ s : State, State.Inv s → s.phase = .sig → s.env.host = [] →
    ∃ k t, Host.Core.run core k s = .next t ∧ (t.phase = .done ∨ t.phase = .fault) ∧
      k ≤ 3 + (s.inLen - 8) / 12 + t.hdr.height.toNat

/-- R15: the cursor never moves back and never passes N, while the block runs. -/
def Obligations.CursorOnlyMovesForward : Prop :=
  ∀ s t : State, State.Inv s → BlockMoves s → step s = .next t → s.phase.busy = true →
    s.cur ≤ t.cur ∧ t.cur ≤ s.inLen

/-- R15, R20 to R23, R33: BPP is 0, 3 or 4, 34 bits hold STRIDE and 66 bits EXP_LEN. With a stream of at most N_MAX bytes
64 bits hold CUR, CP_LEN and ERR_POS while BUSY and after any step taken while BUSY, the one that ends the decode and records
the error included; no step taken in IDLE, DONE or FAULT makes one of the three larger. -/
def Obligations.RegistersFitTheirWidths : Prop :=
  ∀ s : State, State.Inv s →
    (s.geo.bpp = 0#3 ∨ s.geo.bpp = 3#3 ∨ s.geo.bpp = 4#3) ∧ s.geo.stride < 2 ^ 34 ∧ s.geo.expLen < 2 ^ 66 ∧
    (s.phase.busy = true → s.inLen ≤ Config.nMax → s.cur < 2 ^ 64 ∧ s.cpLen < 2 ^ 64 ∧ s.err.pos < 2 ^ 64) ∧
    ∀ t, step s = .next t →
      (s.phase.busy = true → s.inLen ≤ Config.nMax → t.cur < 2 ^ 64 ∧ t.cpLen < 2 ^ 64 ∧ t.err.pos < 2 ^ 64) ∧
      (s.phase.busy = false → t.cur ≤ s.cur ∧ t.cpLen ≤ s.cpLen ∧ t.err.pos ≤ s.err.pos)

/-- R117 (a): at DONE RP has WIDTH * HEIGHT * BPP = EXP_LEN - HEIGHT bytes. -/
def Obligations.OutputLength : Prop :=
  ∀ s : State, State.Inv s → s.phase = .done →
    Memory.dense s.rp (s.hdr.width.toNat * s.hdr.height.toNat * s.geo.bpp.toNat) ∧
    s.rp.length = s.geo.expLen - s.hdr.height.toNat ∧ s.y = s.hdr.height

/-- R19: no rule reads COMPRESSION, FILTERMETHOD or INTERLACE: with other values there, every instruction does the same to
everything else. -/
def Obligations.MethodBytesAreNeverRead : Prop :=
  ∀ (i : Instr) (s t : State) (c f l : Byte), exec i s = .next t →
    ∃ t', exec i (withMethods c f l s) = .next t' ∧ withMethods 0#8 0#8 0#8 t' = withMethods 0#8 0#8 0#8 t
end

