-- ==== Sys2Proof/Laws/Decode.lean ====
section
/-! SUPPORT. Fields and bytes (00_scope.md R8, 20_memory.md R45): the big-endian number of four or eight bytes, and the
bytes of a field, are each other's inverse. -/

namespace Sys2Proof

/-- Putting a byte behind a field is multiplying by 256 and adding. -/
theorem append_byte_toNat {n : Nat} (x : BitVec n) (b : Byte) : (x ++ b).toNat = x.toNat * 256 + b.toNat := by
  rw [BitVec.toNat_append, ← Nat.shiftLeft_add_eq_or_of_lt b.isLt, Nat.shiftLeft_eq]

/-- `be32` as the number of 00_scope.md R8. -/
theorem be32_toNat (b0 b1 b2 b3 : Byte) :
    (be32 b0 b1 b2 b3).toNat = b0.toNat * 2 ^ 24 + b1.toNat * 2 ^ 16 + b2.toNat * 2 ^ 8 + b3.toNat := by
  simp only [be32, append_byte_toNat]
  omega

/-- `be64` as the number of 00_scope.md R8. -/
theorem be64_toNat (b0 b1 b2 b3 b4 b5 b6 b7 : Byte) :
    (be64 b0 b1 b2 b3 b4 b5 b6 b7).toNat = b0.toNat * 2 ^ 56 + b1.toNat * 2 ^ 48 + b2.toNat * 2 ^ 40
      + b3.toNat * 2 ^ 32 + b4.toNat * 2 ^ 24 + b5.toNat * 2 ^ 16 + b6.toNat * 2 ^ 8 + b7.toNat := by
  simp only [be64, append_byte_toNat]
  omega

theorem byteOf_toNat (n k : Nat) : (byteOf n k).toNat = n / 2 ^ (8 * k) % 256 := by
  simp [byteOf]

/-- The number of a field's bytes is the field. -/
theorem be32_bytes (w : Word32) :
    be32 (byteOf w.toNat 3) (byteOf w.toNat 2) (byteOf w.toNat 1) (byteOf w.toNat 0) = w := by
  apply BitVec.eq_of_toNat_eq
  have := w.isLt
  rw [be32_toNat]
  simp only [byteOf_toNat]
  omega

theorem be64_bytes (w : Word64) :
    be64 (byteOf w.toNat 7) (byteOf w.toNat 6) (byteOf w.toNat 5) (byteOf w.toNat 4) (byteOf w.toNat 3)
      (byteOf w.toNat 2) (byteOf w.toNat 1) (byteOf w.toNat 0) = w := by
  apply BitVec.eq_of_toNat_eq
  have := w.isLt
  rw [be64_toNat]
  simp only [byteOf_toNat]
  omega

/-- The bytes of a number are the bytes it was made of. -/
theorem bytes32_be32 (b0 b1 b2 b3 : Byte) : bytes32 (be32 b0 b1 b2 b3) = [b0, b1, b2, b3] := by
  have h0 := b0.isLt
  have h1 := b1.isLt
  have h2 := b2.isLt
  have h3 := b3.isLt
  simp only [bytes32, List.cons.injEq, and_true]
  refine ⟨?_, ?_, ?_, ?_⟩ <;> apply BitVec.eq_of_toNat_eq <;> rw [byteOf_toNat, be32_toNat] <;> omega

theorem bytes64_be64 (b0 b1 b2 b3 b4 b5 b6 b7 : Byte) :
    bytes64 (be64 b0 b1 b2 b3 b4 b5 b6 b7) = [b0, b1, b2, b3, b4, b5, b6, b7] := by
  have h0 := b0.isLt
  have h1 := b1.isLt
  have h2 := b2.isLt
  have h3 := b3.isLt
  have h4 := b4.isLt
  have h5 := b5.isLt
  have h6 := b6.isLt
  have h7 := b7.isLt
  simp only [bytes64, List.cons.injEq, and_true]
  refine ⟨?_, ?_, ?_, ?_, ?_, ?_, ?_, ?_⟩ <;> apply BitVec.eq_of_toNat_eq <;> rw [byteOf_toNat, be64_toNat] <;> omega

end Sys2Proof
end

