-- ==== Sys2Proof/Laws/Memory.lean ====
section
/-! SUPPORT. The laws of a byte space: read after write, the canonical form, spaces that are whole sequences. -/

namespace Sys2Proof.Machine

theorem Memory.read_write_same (m : Memory) (a : Nat) (v : Byte) :
    Memory.read (Memory.write m a v) a = some v := by
  induction m with
  | nil => simp [Memory.write, Memory.read]
  | cons c m ih =>
    obtain ⟨b, w⟩ := c
    simp only [Memory.write]
    split
    · simp [Memory.read]
    · split
      · simp [Memory.read]
      · rename_i h; simp [Memory.read, h, ih]

theorem Memory.read_write_other (m : Memory) (a b : Nat) (v : Byte) (h : b ≠ a) :
    Memory.read (Memory.write m a v) b = Memory.read m b := by
  induction m with
  | nil => simp [Memory.write, Memory.read, h]
  | cons c m ih =>
    obtain ⟨d, w⟩ := c
    simp only [Memory.write]
    split
    · simp [Memory.read, h]
    · split
      · rename_i hd; subst hd; simp [Memory.read, h]
      · simp [Memory.read, ih]

theorem Memory.read_write (m : Memory) (a b : Nat) (v : Byte) :
    Memory.read (Memory.write m a v) b = if b = a then some v else Memory.read m b := by
  split
  · rename_i h; rw [h, Memory.read_write_same]
  · rename_i h; exact Memory.read_write_other m a b v h

/-- The addresses of a write: those there were and the one written. -/
theorem Memory.mem_addrs_write (m : Memory) (a : Nat) (v : Byte) (x : Nat)
    (h : x ∈ (Memory.write m a v).map Prod.fst) : x = a ∨ x ∈ m.map Prod.fst := by
  induction m with
  | nil => simpa [Memory.write] using h
  | cons c m ih =>
    obtain ⟨b, w⟩ := c
    simp only [Memory.write] at h
    split at h
    · simpa using h
    · split at h
      · simp only [List.map_cons, List.mem_cons] at h ⊢
        tauto
      · simp only [List.map_cons, List.mem_cons] at h ⊢
        rcases h with h | h
        · exact Or.inr (Or.inl h)
        · rcases ih h with h | h
          · exact Or.inl h
          · exact Or.inr (Or.inr h)

theorem Memory.write_wf (m : Memory) (a : Nat) (v : Byte) (h : Memory.wf m) : Memory.wf (Memory.write m a v) := by
  induction m with
  | nil => simp [Memory.write, Memory.wf]
  | cons c m ih =>
    obtain ⟨b, w⟩ := c
    simp only [Memory.wf, List.map_cons, List.pairwise_cons] at h
    obtain ⟨hb, hm⟩ := h
    simp only [Memory.write]
    split
    · rename_i hab
      simp only [Memory.wf, List.map_cons, List.pairwise_cons, List.mem_cons]
      refine ⟨?_, hb, hm⟩
      rintro x (rfl | hx)
      · exact hab
      · exact lt_trans hab (hb x hx)
    · split
      · rename_i hab; subst hab
        simp only [Memory.wf, List.map_cons, List.pairwise_cons]
        exact ⟨hb, hm⟩
      · simp only [Memory.wf, List.map_cons, List.pairwise_cons]
        refine ⟨fun x hx => ?_, ih hm⟩
        rcases Memory.mem_addrs_write m a v x hx with rfl | hx
        · omega
        · exact hb x hx

theorem Memory.writeBytes_wf (m : Memory) (a : Nat) (bs : List Byte) (h : Memory.wf m) :
    Memory.wf (Memory.writeBytes m a bs) := by
  induction bs generalizing m a with
  | nil => exact h
  | cons b bs ih => exact ih _ _ (Memory.write_wf m a b h)

theorem Memory.released_wf : Memory.wf Memory.released := by simp [Memory.released, Memory.wf]

theorem Memory.dense_wf {m : Memory} {n : Nat} (h : Memory.dense m n) : Memory.wf m := by
  rw [Memory.wf, h]; exact List.pairwise_lt_range

theorem Memory.dense_length {m : Memory} {n : Nat} (h : Memory.dense m n) : m.length = n := by
  have := congrArg List.length h
  simpa using this

theorem Memory.dense_nil : Memory.dense [] 0 := by simp [Memory.dense]

/-- A byte is read exactly at the addresses the space has. -/
theorem Memory.read_isSome_iff (m : Memory) (a : Nat) :
    (Memory.read m a).isSome = true ↔ a ∈ m.map Prod.fst := by
  induction m with
  | nil => simp [Memory.read]
  | cons c m ih =>
    obtain ⟨b, w⟩ := c
    simp only [Memory.read]
    split
    · rename_i h; simp [h]
    · rename_i h; rw [ih]; simp [h]

theorem Memory.read_of_dense {m : Memory} {n a : Nat} (h : Memory.dense m n) (ha : a < n) :
    ∃ v, Memory.read m a = some v := by
  rw [← Option.isSome_iff_exists, Memory.read_isSome_iff, h]
  exact List.mem_range.2 ha

theorem Memory.read_of_dense_ge {m : Memory} {n a : Nat} (h : Memory.dense m n) (ha : n ≤ a) :
    Memory.read m a = none := by
  rw [← Option.not_isSome_iff_eq_none, Memory.read_isSome_iff, h]
  simpa using ha

/-- Beyond all its addresses, a space grows at the end. -/
theorem Memory.write_end (m : Memory) (a : Nat) (v : Byte) (h : ∀ x ∈ m.map Prod.fst, x < a) :
    Memory.write m a v = m ++ [(a, v)] := by
  induction m with
  | nil => rfl
  | cons c m ih =>
    obtain ⟨b, w⟩ := c
    have hb : b < a := h b (by simp)
    simp only [Memory.write, if_neg (not_lt.2 hb.le), if_neg (Nat.ne_of_gt hb), List.cons_append]
    rw [ih fun x hx => h x (by simp [hx])]

theorem Memory.write_dense {m : Memory} {n : Nat} (v : Byte) (h : Memory.dense m n) :
    Memory.dense (Memory.write m n v) (n + 1) := by
  rw [Memory.write_end m n v (by rw [h]; simp), Memory.dense, List.map_append, h, List.range_succ]
  simp

theorem Memory.writeBytes_dense {m : Memory} {n : Nat} (bs : List Byte) (h : Memory.dense m n) :
    Memory.dense (Memory.writeBytes m n bs) (n + bs.length) := by
  induction bs generalizing m n with
  | nil => simpa [Memory.writeBytes] using h
  | cons b bs ih =>
    have := ih (Memory.write_dense b h)
    simpa [Memory.writeBytes, Nat.add_assoc, Nat.add_comm 1] using this

theorem Memory.read_writeBytes_below (m : Memory) (a : Nat) (bs : List Byte) (x : Nat) (h : x < a) :
    Memory.read (Memory.writeBytes m a bs) x = Memory.read m x := by
  induction bs generalizing m a with
  | nil => rfl
  | cons b bs ih =>
    rw [Memory.writeBytes, ih _ _ (by omega), Memory.read_write_other m a x b (by omega)]

theorem Memory.read_writeBytes_above (m : Memory) (a : Nat) (bs : List Byte) (x : Nat) (h : a + bs.length ≤ x) :
    Memory.read (Memory.writeBytes m a bs) x = Memory.read m x := by
  induction bs generalizing m a with
  | nil => rfl
  | cons b bs ih =>
    simp only [List.length_cons] at h
    rw [Memory.writeBytes, ih _ _ (by omega), Memory.read_write_other m a x b (by omega)]

theorem Memory.read_writeBytes_inside (m : Memory) (a : Nat) (bs : List Byte) (i : Nat) (h : i < bs.length) :
    Memory.read (Memory.writeBytes m a bs) (a + i) = bs[i]? := by
  induction bs generalizing m a i with
  | nil => simp at h
  | cons b bs ih =>
    cases i with
    | zero =>
      have : Memory.read (Memory.writeBytes (Memory.write m a b) (a + 1) bs) a = some b := by
        rw [Memory.read_writeBytes_below _ _ _ _ (by omega), Memory.read_write_same]
      simpa [Memory.writeBytes] using this
    | succ i =>
      have hi : i < bs.length := by simpa using h
      have := ih (Memory.write m a b) (a + 1) i hi
      rw [Memory.writeBytes, show a + (i + 1) = a + 1 + i by omega, this]; rfl

theorem Memory.readBytes_length {m : Memory} {a n : Nat} {bs : List Byte} (h : Memory.readBytes m a n = some bs) :
    bs.length = n := by
  induction n generalizing a bs with
  | zero => simp only [Memory.readBytes, Option.some.injEq] at h; simp [← h]
  | succ n ih =>
    simp only [Memory.readBytes] at h
    split at h
    · cases h
    · split at h
      · cases h
      · rename_i _ _ bs' h'
        cases h; simp [ih h']

theorem Memory.readBytes_get {m : Memory} {a n : Nat} {bs : List Byte} (h : Memory.readBytes m a n = some bs)
    (i : Nat) (hi : i < n) : Memory.read m (a + i) = bs[i]? := by
  induction n generalizing a bs i with
  | zero => omega
  | succ n ih =>
    simp only [Memory.readBytes] at h
    split at h
    · cases h
    · rename_i b hb
      split at h
      · cases h
      · rename_i _ bs' h'
        cases h
        cases i with
        | zero => simpa using hb
        | succ i =>
          have := ih h' i (by omega)
          rw [show a + (i + 1) = a + 1 + i by omega, this]; rfl

theorem Memory.readBytes_of_dense {m : Memory} {n a k : Nat} (h : Memory.dense m n) (hk : a + k ≤ n) :
    ∃ bs, Memory.readBytes m a k = some bs := by
  induction k generalizing a with
  | zero => exact ⟨[], rfl⟩
  | succ k ih =>
    obtain ⟨b, hb⟩ := Memory.read_of_dense h (show a < n by omega)
    obtain ⟨bs, hbs⟩ := ih (a := a + 1) (by omega)
    exact ⟨b :: bs, by simp [Memory.readBytes, hb, hbs]⟩

/-- Two spaces that agree on a range give the same bytes there. -/
theorem Memory.readBytes_congr {m m' : Memory} {a n : Nat}
    (h : ∀ x, a ≤ x → x < a + n → Memory.read m x = Memory.read m' x) :
    Memory.readBytes m a n = Memory.readBytes m' a n := by
  induction n generalizing a with
  | zero => rfl
  | succ n ih =>
    simp only [Memory.readBytes]
    rw [h a (le_refl a) (by omega), ih fun x h1 h2 => h x (by omega) (by omega)]

theorem Memory.readBytes_append (m : Memory) (a n k : Nat) :
    Memory.readBytes m a (n + k) =
      (Memory.readBytes m a n).bind fun p => (Memory.readBytes m (a + n) k).map (p ++ ·) := by
  induction n generalizing a with
  | zero => cases h : Memory.readBytes m a k <;> simp [Memory.readBytes, h]
  | succ n ih =>
    rw [show n + 1 + k = (n + k) + 1 by omega]
    simp only [Memory.readBytes]
    rw [ih (a + 1), show a + 1 + n = a + (n + 1) by omega]
    cases Memory.read m a with
    | none => simp
    | some b =>
      cases Memory.readBytes m (a + 1) n with
      | none => simp
      | some p => cases Memory.readBytes m (a + (n + 1)) k <;> simp

theorem Memory.writeBytes_append (m : Memory) (a : Nat) (p q : List Byte) :
    Memory.writeBytes m a (p ++ q) = Memory.writeBytes (Memory.writeBytes m a p) (a + p.length) q := by
  induction p generalizing m a with
  | nil => simp [Memory.writeBytes]
  | cons b p ih =>
    simp only [List.cons_append, Memory.writeBytes, List.length_cons]
    rw [ih, show a + 1 + p.length = a + (p.length + 1) by omega]

theorem Memory.ofBytes_addrs (a : Nat) (bs : List Byte) :
    (Memory.ofBytes a bs).map Prod.fst = List.range' a bs.length := by
  induction bs generalizing a with
  | nil => rfl
  | cons b bs ih => simp [Memory.ofBytes, ih, List.range'_succ]

theorem Memory.ofBytes_length (a : Nat) (bs : List Byte) : (Memory.ofBytes a bs).length = bs.length := by
  have := congrArg List.length (Memory.ofBytes_addrs a bs)
  simpa using this

theorem Memory.ofBytes_dense (bs : List Byte) : Memory.dense (Memory.ofBytes 0 bs) bs.length := by
  rw [Memory.dense, Memory.ofBytes_addrs, List.range_eq_range']

/-- What a space made of bytes reads as. -/
theorem Memory.read_ofBytes (a : Nat) (bs : List Byte) (x : Nat) :
    Memory.read (Memory.ofBytes a bs) x = if x < a then none else bs[x - a]? := by
  induction bs generalizing a with
  | nil => simp [Memory.ofBytes, Memory.read]
  | cons b bs ih =>
    simp only [Memory.ofBytes, Memory.read, ih]
    rcases Nat.lt_trichotomy x a with h | h | h
    · rw [if_neg (by omega), if_pos (by omega), if_pos h]
    · subst h; simp
    · rw [if_neg (by omega), if_neg (by omega), if_neg (by omega), show x - a = x - (a + 1) + 1 by omega,
        List.getElem?_cons_succ]

/-- Equal readings are equal spaces: the canonical form. -/
theorem Memory.ext_of_wf {m m' : Memory} (h : Memory.wf m) (h' : Memory.wf m')
    (hr : ∀ a, Memory.read m a = Memory.read m' a) : m = m' := by
  induction m generalizing m' with
  | nil =>
    cases m' with
    | nil => rfl
    | cons c m' => have := hr c.1; simp [Memory.read] at this
  | cons c m ih =>
    obtain ⟨b, w⟩ := c
    cases m' with
    | nil => have := hr b; simp [Memory.read] at this
    | cons c' m' =>
      obtain ⟨b', w'⟩ := c'
      simp only [Memory.wf, List.map_cons, List.pairwise_cons] at h h'
      have low : ∀ x, x ≤ b → Memory.read m x = none := fun x hx => by
        rw [← Option.not_isSome_iff_eq_none, Memory.read_isSome_iff]
        intro hm; have := h.1 x hm; omega
      have low' : ∀ x, x ≤ b' → Memory.read m' x = none := fun x hx => by
        rw [← Option.not_isSome_iff_eq_none, Memory.read_isSome_iff]
        intro hm; have := h'.1 x hm; omega
      have hb : b = b' := by
        rcases lt_trichotomy b b' with hlt | heq | hgt
        · have := hr b
          simp [Memory.read, Nat.ne_of_lt hlt, low' b hlt.le] at this
        · exact heq
        · have := hr b'
          simp [Memory.read, Nat.ne_of_lt hgt, low b' hgt.le] at this
      subst hb
      have hw : w = w' := by have := hr b; simpa [Memory.read] using this
      subst hw
      congr 1
      refine ih h.2 h'.2 fun a => ?_
      by_cases hab : a = b
      · rw [hab, low b le_rfl, low' b le_rfl]
      · have := hr a; simpa [Memory.read, hab] using this

end Sys2Proof.Machine
end

