-- ==== Sys2Proof/Laws/State.lean ====
section
/-! SUPPORT. One lemma per field per update of the state, so that no later proof unfolds a record update. -/

namespace Sys2Proof.Machine

/-! ## raise -/

@[simp] theorem raise_phase (e : DecodeError) (pos : Nat) (s : State) : (raise e pos s).phase = .fault := rfl
@[simp] theorem raise_cur (e : DecodeError) (pos : Nat) (s : State) : (raise e pos s).cur = s.cur := rfl
@[simp] theorem raise_y (e : DecodeError) (pos : Nat) (s : State) : (raise e pos s).y = s.y := rfl
@[simp] theorem raise_hdr (e : DecodeError) (pos : Nat) (s : State) : (raise e pos s).hdr = s.hdr := rfl
@[simp] theorem raise_geo (e : DecodeError) (pos : Nat) (s : State) : (raise e pos s).geo = s.geo := rfl
@[simp] theorem raise_cpLen (e : DecodeError) (pos : Nat) (s : State) : (raise e pos s).cpLen = s.cpLen := rfl
@[simp] theorem raise_flags (e : DecodeError) (pos : Nat) (s : State) : (raise e pos s).flags = s.flags := rfl
@[simp] theorem raise_err (e : DecodeError) (pos : Nat) (s : State) : (raise e pos s).err =
    { kind := e.kindCode, sub := e.subCode, pos := pos } := rfl
@[simp] theorem raise_cp (e : DecodeError) (pos : Nat) (s : State) : (raise e pos s).cp = Memory.released := rfl
@[simp] theorem raise_fs (e : DecodeError) (pos : Nat) (s : State) : (raise e pos s).fs = Memory.released := rfl
@[simp] theorem raise_rp (e : DecodeError) (pos : Nat) (s : State) : (raise e pos s).rp = Memory.released := rfl
@[simp] theorem raise_env (e : DecodeError) (pos : Nat) (s : State) : (raise e pos s).env = s.env := rfl

/-! ## resetBlock -/

@[simp] theorem resetBlock_phase (s : State) : (resetBlock s).phase = .idle := rfl
@[simp] theorem resetBlock_cur (s : State) : (resetBlock s).cur = 0 := rfl
@[simp] theorem resetBlock_y (s : State) : (resetBlock s).y = 0#32 := rfl
@[simp] theorem resetBlock_hdr (s : State) : (resetBlock s).hdr = Header.reset := rfl
@[simp] theorem resetBlock_geo (s : State) : (resetBlock s).geo = Geometry.reset := rfl
@[simp] theorem resetBlock_cpLen (s : State) : (resetBlock s).cpLen = 0 := rfl
@[simp] theorem resetBlock_flags (s : State) : (resetBlock s).flags = Flags.reset := rfl
@[simp] theorem resetBlock_err (s : State) : (resetBlock s).err = ErrorRegs.reset := rfl
@[simp] theorem resetBlock_cp (s : State) : (resetBlock s).cp = [] := rfl
@[simp] theorem resetBlock_fs (s : State) : (resetBlock s).fs = [] := rfl
@[simp] theorem resetBlock_rp (s : State) : (resetBlock s).rp = [] := rfl
@[simp] theorem resetBlock_env (s : State) : (resetBlock s).env = s.env := rfl

/-! ## startDecode -/

@[simp] theorem startDecode_phase (s : State) : (startDecode s).phase = .sig := rfl
@[simp] theorem startDecode_cur (s : State) : (startDecode s).cur = 0 := rfl
@[simp] theorem startDecode_y (s : State) : (startDecode s).y = 0#32 := rfl
@[simp] theorem startDecode_hdr (s : State) : (startDecode s).hdr = Header.reset := rfl
@[simp] theorem startDecode_geo (s : State) : (startDecode s).geo = Geometry.reset := rfl
@[simp] theorem startDecode_cpLen (s : State) : (startDecode s).cpLen = 0 := rfl
@[simp] theorem startDecode_flags (s : State) : (startDecode s).flags = Flags.reset := rfl
@[simp] theorem startDecode_err (s : State) : (startDecode s).err = ErrorRegs.reset := rfl
@[simp] theorem startDecode_cp (s : State) : (startDecode s).cp = [] := rfl
@[simp] theorem startDecode_fs (s : State) : (startDecode s).fs = [] := rfl
@[simp] theorem startDecode_rp (s : State) : (startDecode s).rp = [] := rfl
@[simp] theorem startDecode_env (s : State) : (startDecode s).env = s.env := rfl

/-! ## endOfParse -/

@[simp] theorem endOfParse_phase (s : State) : (endOfParse s).phase = .inflate := rfl
@[simp] theorem endOfParse_cur (s : State) : (endOfParse s).cur = s.cur := rfl
@[simp] theorem endOfParse_y (s : State) : (endOfParse s).y = s.y := rfl
@[simp] theorem endOfParse_hdr (s : State) : (endOfParse s).hdr = s.hdr := rfl
@[simp] theorem endOfParse_geo (s : State) : (endOfParse s).geo = s.geo := rfl
@[simp] theorem endOfParse_cpLen (s : State) : (endOfParse s).cpLen = s.cpLen := rfl
@[simp] theorem endOfParse_flags (s : State) : (endOfParse s).flags = s.flags := rfl
@[simp] theorem endOfParse_err (s : State) : (endOfParse s).err = s.err := rfl
@[simp] theorem endOfParse_cp (s : State) : (endOfParse s).cp = s.cp := rfl
@[simp] theorem endOfParse_fs (s : State) : (endOfParse s).fs = s.fs := rfl
@[simp] theorem endOfParse_rp (s : State) : (endOfParse s).rp = s.rp := rfl
@[simp] theorem endOfParse_env (s : State) : (endOfParse s).env = s.env := rfl

/-! ## acceptSignature -/

@[simp] theorem acceptSignature_phase (s : State) : (acceptSignature s).phase = .chunks := rfl
@[simp] theorem acceptSignature_cur (s : State) : (acceptSignature s).cur = s.cur := rfl
@[simp] theorem acceptSignature_y (s : State) : (acceptSignature s).y = s.y := rfl
@[simp] theorem acceptSignature_hdr (s : State) : (acceptSignature s).hdr = s.hdr := rfl
@[simp] theorem acceptSignature_geo (s : State) : (acceptSignature s).geo = s.geo := rfl
@[simp] theorem acceptSignature_cpLen (s : State) : (acceptSignature s).cpLen = s.cpLen := rfl
@[simp] theorem acceptSignature_flags (s : State) : (acceptSignature s).flags = { s.flags with sigOk := true } := rfl
@[simp] theorem acceptSignature_err (s : State) : (acceptSignature s).err = s.err := rfl
@[simp] theorem acceptSignature_cp (s : State) : (acceptSignature s).cp = s.cp := rfl
@[simp] theorem acceptSignature_fs (s : State) : (acceptSignature s).fs = s.fs := rfl
@[simp] theorem acceptSignature_rp (s : State) : (acceptSignature s).rp = s.rp := rfl
@[simp] theorem acceptSignature_env (s : State) : (acceptSignature s).env = s.env := rfl

/-! ## latchHeader -/

@[simp] theorem latchHeader_phase (h : Header) (s : State) : (latchHeader h s).phase = s.phase := rfl
@[simp] theorem latchHeader_cur (h : Header) (s : State) : (latchHeader h s).cur = s.cur := rfl
@[simp] theorem latchHeader_y (h : Header) (s : State) : (latchHeader h s).y = s.y := rfl
@[simp] theorem latchHeader_hdr (h : Header) (s : State) : (latchHeader h s).hdr = h := rfl
@[simp] theorem latchHeader_geo (h : Header) (s : State) : (latchHeader h s).geo = s.geo := rfl
@[simp] theorem latchHeader_cpLen (h : Header) (s : State) : (latchHeader h s).cpLen = s.cpLen := rfl
@[simp] theorem latchHeader_flags (h : Header) (s : State) : (latchHeader h s).flags =
    { s.flags with hdrValid := true } := rfl
@[simp] theorem latchHeader_err (h : Header) (s : State) : (latchHeader h s).err = s.err := rfl
@[simp] theorem latchHeader_cp (h : Header) (s : State) : (latchHeader h s).cp = s.cp := rfl
@[simp] theorem latchHeader_fs (h : Header) (s : State) : (latchHeader h s).fs = s.fs := rfl
@[simp] theorem latchHeader_rp (h : Header) (s : State) : (latchHeader h s).rp = s.rp := rfl
@[simp] theorem latchHeader_env (h : Header) (s : State) : (latchHeader h s).env = s.env := rfl

/-! ## appendPayload -/

@[simp] theorem appendPayload_phase (n : Nat) (p : List Byte) (s : State) : (appendPayload n p s).phase =
    s.phase := rfl
@[simp] theorem appendPayload_cur (n : Nat) (p : List Byte) (s : State) : (appendPayload n p s).cur = s.cur := rfl
@[simp] theorem appendPayload_y (n : Nat) (p : List Byte) (s : State) : (appendPayload n p s).y = s.y := rfl
@[simp] theorem appendPayload_hdr (n : Nat) (p : List Byte) (s : State) : (appendPayload n p s).hdr = s.hdr := rfl
@[simp] theorem appendPayload_geo (n : Nat) (p : List Byte) (s : State) : (appendPayload n p s).geo = s.geo := rfl
@[simp] theorem appendPayload_cpLen (n : Nat) (p : List Byte) (s : State) : (appendPayload n p s).cpLen =
    s.cpLen + n := rfl
@[simp] theorem appendPayload_flags (n : Nat) (p : List Byte) (s : State) : (appendPayload n p s).flags =
    s.flags := rfl
@[simp] theorem appendPayload_err (n : Nat) (p : List Byte) (s : State) : (appendPayload n p s).err = s.err := rfl
@[simp] theorem appendPayload_cp (n : Nat) (p : List Byte) (s : State) : (appendPayload n p s).cp =
    Memory.writeBytes s.cp s.cpLen p := rfl
@[simp] theorem appendPayload_fs (n : Nat) (p : List Byte) (s : State) : (appendPayload n p s).fs = s.fs := rfl
@[simp] theorem appendPayload_rp (n : Nat) (p : List Byte) (s : State) : (appendPayload n p s).rp = s.rp := rfl
@[simp] theorem appendPayload_env (n : Nat) (p : List Byte) (s : State) : (appendPayload n p s).env = s.env := rfl

/-! ## markIend -/

@[simp] theorem markIend_phase (s : State) : (markIend s).phase = s.phase := rfl
@[simp] theorem markIend_cur (s : State) : (markIend s).cur = s.cur := rfl
@[simp] theorem markIend_y (s : State) : (markIend s).y = s.y := rfl
@[simp] theorem markIend_hdr (s : State) : (markIend s).hdr = s.hdr := rfl
@[simp] theorem markIend_geo (s : State) : (markIend s).geo = s.geo := rfl
@[simp] theorem markIend_cpLen (s : State) : (markIend s).cpLen = s.cpLen := rfl
@[simp] theorem markIend_flags (s : State) : (markIend s).flags = { s.flags with iendSeen := true } := rfl
@[simp] theorem markIend_err (s : State) : (markIend s).err = s.err := rfl
@[simp] theorem markIend_cp (s : State) : (markIend s).cp = s.cp := rfl
@[simp] theorem markIend_fs (s : State) : (markIend s).fs = s.fs := rfl
@[simp] theorem markIend_rp (s : State) : (markIend s).rp = s.rp := rfl
@[simp] theorem markIend_env (s : State) : (markIend s).env = s.env := rfl

/-! ## setGeometry -/

@[simp] theorem setGeometry_phase (bpp : BitVec 3) (s : State) : (setGeometry bpp s).phase = s.phase := rfl
@[simp] theorem setGeometry_cur (bpp : BitVec 3) (s : State) : (setGeometry bpp s).cur = s.cur := rfl
@[simp] theorem setGeometry_y (bpp : BitVec 3) (s : State) : (setGeometry bpp s).y = s.y := rfl
@[simp] theorem setGeometry_hdr (bpp : BitVec 3) (s : State) : (setGeometry bpp s).hdr = s.hdr := rfl
@[simp] theorem setGeometry_geo (bpp : BitVec 3) (s : State) : (setGeometry bpp s).geo =
    { bpp := bpp, stride := s.hdr.width.toNat * bpp.toNat, expLen := s.hdr.height.toNat * (s.hdr.width.toNat * bpp.toNat + 1) } := rfl
@[simp] theorem setGeometry_cpLen (bpp : BitVec 3) (s : State) : (setGeometry bpp s).cpLen = s.cpLen := rfl
@[simp] theorem setGeometry_flags (bpp : BitVec 3) (s : State) : (setGeometry bpp s).flags = s.flags := rfl
@[simp] theorem setGeometry_err (bpp : BitVec 3) (s : State) : (setGeometry bpp s).err = s.err := rfl
@[simp] theorem setGeometry_cp (bpp : BitVec 3) (s : State) : (setGeometry bpp s).cp = s.cp := rfl
@[simp] theorem setGeometry_fs (bpp : BitVec 3) (s : State) : (setGeometry bpp s).fs = s.fs := rfl
@[simp] theorem setGeometry_rp (bpp : BitVec 3) (s : State) : (setGeometry bpp s).rp = s.rp := rfl
@[simp] theorem setGeometry_env (bpp : BitVec 3) (s : State) : (setGeometry bpp s).env = s.env := rfl

/-! ## afterInflate -/

@[simp] theorem afterInflate_phase (s : State) : (afterInflate s).phase = s.phase := rfl
@[simp] theorem afterInflate_cur (s : State) : (afterInflate s).cur = s.cur := rfl
@[simp] theorem afterInflate_y (s : State) : (afterInflate s).y = s.y := rfl
@[simp] theorem afterInflate_hdr (s : State) : (afterInflate s).hdr = s.hdr := rfl
@[simp] theorem afterInflate_geo (s : State) : (afterInflate s).geo = s.geo := rfl
@[simp] theorem afterInflate_cpLen (s : State) : (afterInflate s).cpLen = s.cpLen := rfl
@[simp] theorem afterInflate_flags (s : State) : (afterInflate s).flags = s.flags := rfl
@[simp] theorem afterInflate_err (s : State) : (afterInflate s).err = s.err := rfl
@[simp] theorem afterInflate_cp (s : State) : (afterInflate s).cp = Memory.released := rfl
@[simp] theorem afterInflate_fs (s : State) : (afterInflate s).fs = s.fs := rfl
@[simp] theorem afterInflate_rp (s : State) : (afterInflate s).rp = s.rp := rfl
@[simp] theorem afterInflate_env (s : State) : (afterInflate s).env = { s.env with calls := s.env.calls + 1 } := rfl

/-! ## fillScanlines -/

@[simp] theorem fillScanlines_phase (r : List Byte) (s : State) : (fillScanlines r s).phase = .defilter := rfl
@[simp] theorem fillScanlines_cur (r : List Byte) (s : State) : (fillScanlines r s).cur = s.cur := rfl
@[simp] theorem fillScanlines_y (r : List Byte) (s : State) : (fillScanlines r s).y = 0#32 := rfl
@[simp] theorem fillScanlines_hdr (r : List Byte) (s : State) : (fillScanlines r s).hdr = s.hdr := rfl
@[simp] theorem fillScanlines_geo (r : List Byte) (s : State) : (fillScanlines r s).geo = s.geo := rfl
@[simp] theorem fillScanlines_cpLen (r : List Byte) (s : State) : (fillScanlines r s).cpLen = s.cpLen := rfl
@[simp] theorem fillScanlines_flags (r : List Byte) (s : State) : (fillScanlines r s).flags = s.flags := rfl
@[simp] theorem fillScanlines_err (r : List Byte) (s : State) : (fillScanlines r s).err = s.err := rfl
@[simp] theorem fillScanlines_cp (r : List Byte) (s : State) : (fillScanlines r s).cp = s.cp := rfl
@[simp] theorem fillScanlines_fs (r : List Byte) (s : State) : (fillScanlines r s).fs =
    Memory.writeBytes s.fs 0 r := rfl
@[simp] theorem fillScanlines_rp (r : List Byte) (s : State) : (fillScanlines r s).rp = s.rp := rfl
@[simp] theorem fillScanlines_env (r : List Byte) (s : State) : (fillScanlines r s).env = s.env := rfl

/-! ## markUnknownFilter -/

@[simp] theorem markUnknownFilter_phase (s : State) : (markUnknownFilter s).phase = s.phase := rfl
@[simp] theorem markUnknownFilter_cur (s : State) : (markUnknownFilter s).cur = s.cur := rfl
@[simp] theorem markUnknownFilter_y (s : State) : (markUnknownFilter s).y = s.y := rfl
@[simp] theorem markUnknownFilter_hdr (s : State) : (markUnknownFilter s).hdr = s.hdr := rfl
@[simp] theorem markUnknownFilter_geo (s : State) : (markUnknownFilter s).geo = s.geo := rfl
@[simp] theorem markUnknownFilter_cpLen (s : State) : (markUnknownFilter s).cpLen = s.cpLen := rfl
@[simp] theorem markUnknownFilter_flags (s : State) : (markUnknownFilter s).flags =
    { s.flags with unkFilt := true } := rfl
@[simp] theorem markUnknownFilter_err (s : State) : (markUnknownFilter s).err = s.err := rfl
@[simp] theorem markUnknownFilter_cp (s : State) : (markUnknownFilter s).cp = s.cp := rfl
@[simp] theorem markUnknownFilter_fs (s : State) : (markUnknownFilter s).fs = s.fs := rfl
@[simp] theorem markUnknownFilter_rp (s : State) : (markUnknownFilter s).rp = s.rp := rfl
@[simp] theorem markUnknownFilter_env (s : State) : (markUnknownFilter s).env = s.env := rfl

/-! ## drainInput -/

@[simp] theorem drainInput_phase (s : State) : (drainInput s).phase = s.phase := rfl
@[simp] theorem drainInput_cur (s : State) : (drainInput s).cur = s.inLen := rfl
@[simp] theorem drainInput_y (s : State) : (drainInput s).y = s.y := rfl
@[simp] theorem drainInput_hdr (s : State) : (drainInput s).hdr = s.hdr := rfl
@[simp] theorem drainInput_geo (s : State) : (drainInput s).geo = s.geo := rfl
@[simp] theorem drainInput_cpLen (s : State) : (drainInput s).cpLen = s.cpLen := rfl
@[simp] theorem drainInput_flags (s : State) : (drainInput s).flags = s.flags := rfl
@[simp] theorem drainInput_err (s : State) : (drainInput s).err = s.err := rfl
@[simp] theorem drainInput_cp (s : State) : (drainInput s).cp = s.cp := rfl
@[simp] theorem drainInput_fs (s : State) : (drainInput s).fs = s.fs := rfl
@[simp] theorem drainInput_rp (s : State) : (drainInput s).rp = s.rp := rfl
@[simp] theorem drainInput_env (s : State) : (drainInput s).env = s.env := rfl

/-! ## finishRow -/

@[simp] theorem finishRow_phase (rp : Memory) (s : State) :
    (finishRow rp s).phase = if s.y + 1#32 = s.hdr.height then .done else s.phase := by
  simp only [finishRow]; split <;> rfl
@[simp] theorem finishRow_cur (rp : Memory) (s : State) :
    (finishRow rp s).cur = s.cur := by
  simp only [finishRow]; split <;> rfl
@[simp] theorem finishRow_y (rp : Memory) (s : State) :
    (finishRow rp s).y = s.y + 1#32 := by
  simp only [finishRow]; split <;> rfl
@[simp] theorem finishRow_hdr (rp : Memory) (s : State) :
    (finishRow rp s).hdr = s.hdr := by
  simp only [finishRow]; split <;> rfl
@[simp] theorem finishRow_geo (rp : Memory) (s : State) :
    (finishRow rp s).geo = s.geo := by
  simp only [finishRow]; split <;> rfl
@[simp] theorem finishRow_cpLen (rp : Memory) (s : State) :
    (finishRow rp s).cpLen = s.cpLen := by
  simp only [finishRow]; split <;> rfl
@[simp] theorem finishRow_flags (rp : Memory) (s : State) :
    (finishRow rp s).flags = s.flags := by
  simp only [finishRow]; split <;> rfl
@[simp] theorem finishRow_err (rp : Memory) (s : State) :
    (finishRow rp s).err = s.err := by
  simp only [finishRow]; split <;> rfl
@[simp] theorem finishRow_cp (rp : Memory) (s : State) :
    (finishRow rp s).cp = s.cp := by
  simp only [finishRow]; split <;> rfl
@[simp] theorem finishRow_fs (rp : Memory) (s : State) :
    (finishRow rp s).fs = if s.y + 1#32 = s.hdr.height then Memory.released else s.fs := by
  simp only [finishRow]; split <;> rfl
@[simp] theorem finishRow_rp (rp : Memory) (s : State) :
    (finishRow rp s).rp = rp := by
  simp only [finishRow]; split <;> rfl
@[simp] theorem finishRow_env (rp : Memory) (s : State) :
    (finishRow rp s).env = s.env := by
  simp only [finishRow]; split <;> rfl

/-! ## The length of IN -/

@[simp] theorem raise_inLen (e : DecodeError) (pos : Nat) (s : State) : (raise e pos s).inLen = s.inLen := rfl
@[simp] theorem resetBlock_inLen (s : State) : (resetBlock s).inLen = s.inLen := rfl
@[simp] theorem startDecode_inLen (s : State) : (startDecode s).inLen = s.inLen := rfl
@[simp] theorem endOfParse_inLen (s : State) : (endOfParse s).inLen = s.inLen := rfl
@[simp] theorem acceptSignature_inLen (s : State) : (acceptSignature s).inLen = s.inLen := rfl
@[simp] theorem latchHeader_inLen (h : Header) (s : State) : (latchHeader h s).inLen = s.inLen := rfl
@[simp] theorem appendPayload_inLen (n : Nat) (p : List Byte) (s : State) : (appendPayload n p s).inLen = s.inLen := rfl
@[simp] theorem markIend_inLen (s : State) : (markIend s).inLen = s.inLen := rfl
@[simp] theorem setGeometry_inLen (bpp : BitVec 3) (s : State) : (setGeometry bpp s).inLen = s.inLen := rfl
@[simp] theorem afterInflate_inLen (s : State) : (afterInflate s).inLen = s.inLen := rfl
@[simp] theorem fillScanlines_inLen (r : List Byte) (s : State) : (fillScanlines r s).inLen = s.inLen := rfl
@[simp] theorem markUnknownFilter_inLen (s : State) : (markUnknownFilter s).inLen = s.inLen := rfl
@[simp] theorem drainInput_inLen (s : State) : (drainInput s).inLen = s.inLen := rfl

/-! ## The reset state -/

theorem reset_eq_resetIn : State.reset = State.resetIn Env.initial := rfl
theorem resetBlock_eq (s : State) : resetBlock s = State.resetIn s.env := rfl

/-- After reset every byte space is in its canonical form. -/
theorem reset_memories_wf :
    Memory.wf State.reset.env.input ∧ Memory.wf State.reset.cp ∧ Memory.wf State.reset.fs ∧ Memory.wf State.reset.rp := by
  decide

end Sys2Proof.Machine
end

