-- ==== Sys2Proof/Laws/Stream.lean ====
section
/-! SUPPORT. What `streamRead` and the frame of a chunk can do, said once (20_memory.md R43, 40_stream_front.md R78). -/

namespace Sys2Proof.Machine

/-- Everything a `StreamRead` that finds its bytes does. -/
theorem streamRead_bytes {n : Nat} {s t : State} {b : List Byte} (h : streamRead n s = .bytes b t) :
    s.cur + n ≤ s.inLen ∧ Memory.readBytes s.env.input s.cur n = some b ∧ b.length = n ∧
      t = { s with cur := s.cur + n } := by
  simp only [streamRead] at h
  split at h
  · rename_i hle
    split at h
    · rename_i b' hb
      cases h
      exact ⟨hle, hb, Memory.readBytes_length hb, rfl⟩
    · cases h
  · cases h

/-- Everything a `StreamRead` that reports `Short` does. -/
theorem streamRead_short {n : Nat} {s t : State} (h : streamRead n s = .short t) :
    s.inLen < s.cur + n ∧ t = drainInput s := by
  simp only [streamRead] at h
  split at h
  · split at h <;> cases h
  · rename_i hle
    cases h
    exact ⟨by omega, rfl⟩

theorem streamRead_not_hole {n : Nat} {s : State} {a : Nat} (hd : Memory.dense s.env.input s.inLen) :
    streamRead n s ≠ .hole a := by
  intro h
  simp only [streamRead] at h
  split at h
  · rename_i hle
    obtain ⟨bs, hbs⟩ := Memory.readBytes_of_dense hd hle
    rw [hbs] at h
    cases h
  · cases h

/-- On a stream without holes, a read that fits answers the bytes. -/
theorem streamRead_of_le {n : Nat} {s : State} {b : List Byte} (hle : s.cur + n ≤ s.inLen)
    (hb : Memory.readBytes s.env.input s.cur n = some b) :
    streamRead n s = .bytes b { s with cur := s.cur + n } := by
  simp only [streamRead, if_pos hle, hb]

theorem streamRead_of_gt {n : Nat} {s : State} (h : s.inLen < s.cur + n) :
    streamRead n s = .short (drainInput s) := by
  simp only [streamRead, if_neg (by omega : ¬ s.cur + n ≤ s.inLen), drainInput]

/-- `chunkStep` when LEN and TYPE are there: the operation runs behind them, then the checksum. -/
theorem chunkStep_run {op : State → OpResult} {s : State} (hp : s.phase = .chunks)
    (hd : Memory.dense s.env.input s.inLen) (hle : s.cur + 8 ≤ s.inLen) :
    chunkStep op s = finishChunk s.cur (op { s with cur := s.cur + 8 }) := by
  obtain ⟨b1, h1⟩ := Memory.readBytes_of_dense (k := 4) (a := s.cur) hd (by omega)
  obtain ⟨b2, h2⟩ := Memory.readBytes_of_dense (k := 4) (a := s.cur + 4) hd (by omega)
  have e1 := streamRead_of_le (s := s) (n := 4) (by omega) h1
  have e2 : streamRead 4 { s with cur := s.cur + 4 } = .bytes b2 { s with cur := s.cur + 8 } := by
    rw [streamRead_of_le (s := { s with cur := s.cur + 4 }) (n := 4) (b := b2)
      (by show s.cur + 4 + 4 ≤ s.inLen; omega) h2]
  simp only [chunkStep, if_pos hp, e1, e2]

/-- `chunkStep` when the stream ends in LEN or TYPE. -/
theorem chunkStep_short {op : State → OpResult} {s : State} (hp : s.phase = .chunks)
    (hd : Memory.dense s.env.input s.inLen) (hlt : s.inLen < s.cur + 8) :
    chunkStep op s = .next (shortChunk s) := by
  by_cases h4 : s.cur + 4 ≤ s.inLen
  · obtain ⟨b1, h1⟩ := Memory.readBytes_of_dense (k := 4) (a := s.cur) hd h4
    have e1 := streamRead_of_le (s := s) (n := 4) h4 h1
    have e2 : streamRead 4 { s with cur := s.cur + 4 } = .short (drainInput s) := by
      rw [streamRead_of_gt (s := { s with cur := s.cur + 4 }) (n := 4)
        (by show s.inLen < s.cur + 4 + 4; omega)]
      rfl
    simp only [chunkStep, if_pos hp, e1, e2, shortChunk]
  · simp only [chunkStep, if_pos hp, streamRead_of_gt (s := s) (n := 4) (by omega), shortChunk]

/-- Everything S_CHUNK can do once it answers a next state: the loop ends, an error of the operation is taken, the
checksum is short, or the chunk completes. -/
theorem chunkStep_next {op : State → OpResult} {s u : State} (h : chunkStep op s = .next u) :
    s.phase = .chunks ∧
      ((s.inLen < s.cur + 8 ∧ u = shortChunk s) ∨
       (s.cur + 8 ≤ s.inLen ∧
        ((∃ e t, op { s with cur := s.cur + 8 } = .raised e t ∧ u = raise e s.cur t) ∨
         (∃ t, op { s with cur := s.cur + 8 } = .done t ∧
           ((t.inLen < t.cur + 4 ∧ u = raise .truncatedChecksum s.cur (drainInput t)) ∨
            (t.cur + 4 ≤ t.inLen ∧ u = { t with cur := t.cur + 4 })))))) := by
  simp only [chunkStep] at h
  split at h
  · rename_i hp
    refine ⟨hp, ?_⟩
    split at h
    · cases h
    · rename_i t ht
      obtain ⟨hlt, rfl⟩ := streamRead_short ht
      cases h
      exact Or.inl ⟨by omega, rfl⟩
    · rename_i b1 t1 h1
      obtain ⟨hle1, -, -, rfl⟩ := streamRead_bytes h1
      split at h
      · cases h
      · rename_i t ht
        obtain ⟨hlt, rfl⟩ := streamRead_short ht
        cases h
        exact Or.inl ⟨by have : s.inLen < s.cur + 4 + 4 := hlt; omega, rfl⟩
      · rename_i b2 t2 h2
        obtain ⟨hle2, -, -, rfl⟩ := streamRead_bytes h2
        have hle : s.cur + 8 ≤ s.inLen := by
          have : s.cur + 4 + 4 ≤ s.inLen := hle2
          omega
        refine Or.inr ⟨hle, ?_⟩
        change finishChunk s.cur (op { s with cur := s.cur + 8 }) = .next u at h
        simp only [finishChunk] at h
        split at h
        · cases h
        · rename_i e t he
          cases h
          exact Or.inl ⟨e, t, he, rfl⟩
        · rename_i t ht
          refine Or.inr ⟨t, ht, ?_⟩
          simp only [skipChecksum] at h
          split at h
          · cases h
          · rename_i v hv
            obtain ⟨hlt, rfl⟩ := streamRead_short hv
            cases h
            exact Or.inl ⟨hlt, rfl⟩
          · rename_i b v hv
            obtain ⟨hle3, -, -, rfl⟩ := streamRead_bytes hv
            cases h
            exact Or.inr ⟨hle3, rfl⟩
  · cases h

/-- On a stream without holes S_CHUNK answers a next state whenever its operation does not stop. -/
theorem chunkStep_answers {op : State → OpResult} {s : State} (hp : s.phase = .chunks)
    (hd : Memory.dense s.env.input s.inLen)
    (hop : (∃ e t, op { s with cur := s.cur + 8 } = .raised e t) ∨
      (∃ t, op { s with cur := s.cur + 8 } = .done t ∧ t.env.input = s.env.input)) :
    ∃ u, chunkStep op s = .next u := by
  by_cases hle : s.cur + 8 ≤ s.inLen
  · rw [chunkStep_run hp hd hle]
    rcases hop with ⟨e, t, h⟩ | ⟨t, h, ht⟩
    · exact ⟨_, by rw [h]; rfl⟩
    · rw [h]
      show ∃ u, skipChecksum s.cur t = .next u
      simp only [skipChecksum]
      have hd' : Memory.dense t.env.input t.inLen := by
        simp only [State.inLen, ht]; exact hd
      split
      · rename_i a ha; exact absurd ha (streamRead_not_hole hd')
      · exact ⟨_, rfl⟩
      · exact ⟨_, rfl⟩
  · exact ⟨_, chunkStep_short hp hd (by omega)⟩

/-- Everything a payload read can do. -/
theorem withPayload_cases (n : Nat) (s : State) (k : List Byte → State → OpResult)
    (hd : Memory.dense s.env.input s.inLen) :
    (s.inLen < s.cur + n ∧ withPayload n s k = .raised .truncatedPayload (drainInput s)) ∨
    (∃ p, s.cur + n ≤ s.inLen ∧ Memory.readBytes s.env.input s.cur n = some p ∧ p.length = n ∧
      withPayload n s k = k p { s with cur := s.cur + n }) := by
  by_cases hle : s.cur + n ≤ s.inLen
  · obtain ⟨p, hp⟩ := Memory.readBytes_of_dense hd hle
    exact Or.inr ⟨p, hle, hp, Memory.readBytes_length hp, by
      simp only [withPayload, streamRead_of_le hle hp]⟩
  · exact Or.inl ⟨by omega, by simp only [withPayload, streamRead_of_gt (by omega : s.inLen < s.cur + n)]⟩

end Sys2Proof.Machine
end

