-- ==== Sys2Proof/Laws/Exec.lean ====
section
/-! SUPPORT. Inversion: everything each family of instructions can do once it answers a next state, said once. -/

namespace Sys2Proof.Machine

/-- Everything SIG can do. -/
theorem execSig_next {m : Word64} {s t : State} (h : execSig m s = .next t) :
    s.phase = .sig ∧
      ((s.inLen < s.cur + 8 ∧ t = raise .truncatedSignature 0 (drainInput s)) ∨
       (s.cur + 8 ≤ s.inLen ∧
        ((m = sigMagic ∧ t = acceptSignature { s with cur := s.cur + 8 }) ∨
         (m ≠ sigMagic ∧ t = raise .badSignature 0 { s with cur := s.cur + 8 })))) := by
  simp only [execSig] at h
  split at h
  · rename_i hp
    refine ⟨hp, ?_⟩
    split at h
    · cases h
    · rename_i u hu
      obtain ⟨hlt, rfl⟩ := streamRead_short hu
      cases h
      exact Or.inl ⟨hlt, rfl⟩
    · rename_i b u hu
      obtain ⟨hle, -, -, rfl⟩ := streamRead_bytes hu
      refine Or.inr ⟨hle, ?_⟩
      split at h
      · rename_i hm; cases h; exact Or.inl ⟨hm, rfl⟩
      · rename_i hm; cases h; exact Or.inr ⟨hm, rfl⟩
  · cases h

/-- Everything a payload read can do, its continuation included. -/
theorem withPayload_inv {n : Nat} {s : State} {k : List Byte → State → OpResult} {r : OpResult}
    (h : withPayload n s k = r) :
    (∃ f, r = .stop f) ∨ (s.inLen < s.cur + n ∧ r = .raised .truncatedPayload (drainInput s)) ∨
      ∃ p, s.cur + n ≤ s.inLen ∧ Memory.readBytes s.env.input s.cur n = some p ∧ p.length = n ∧
        r = k p { s with cur := s.cur + n } := by
  simp only [withPayload] at h
  split at h
  · exact Or.inl ⟨_, h.symm⟩
  · rename_i u hu
    obtain ⟨hlt, rfl⟩ := streamRead_short hu
    exact Or.inr (Or.inl ⟨hlt, h.symm⟩)
  · rename_i p u hu
    obtain ⟨hle, hp, hl, rfl⟩ := streamRead_bytes hu
    exact Or.inr (Or.inr ⟨p, hle, hp, hl, h.symm⟩)

/-- The errors OpIHDR raises and the states it raises them in. -/
theorem opIhdr_raised {len : Word32} {s t : State} {e : DecodeError} (h : opIhdr len s = .raised e t) :
    t = s ∨ (s.inLen < s.cur + 13 ∧ t = drainInput s) ∨ (s.cur + 13 ≤ s.inLen ∧ t = { s with cur := s.cur + 13 }) := by
  simp only [opIhdr] at h
  split at h
  · cases h; exact Or.inl rfl
  · split at h
    · cases h; exact Or.inl rfl
    · rcases withPayload_inv h with ⟨f, hf⟩ | ⟨hlt, hf⟩ | ⟨p, hle, hp, hl, hf⟩
      · cases hf
      · cases hf; exact Or.inr (Or.inl ⟨hlt, rfl⟩)
      · split at hf
        · cases hf; exact Or.inr (Or.inr ⟨hle, rfl⟩)
        · cases hf

/-- What OpIHDR's success means (R87). -/
theorem opIhdr_done {len : Word32} {s t : State} (h : opIhdr len s = .done t) :
    s.flags.hdrValid = false ∧ len = 13#32 ∧ s.cur + 13 ≤ s.inLen ∧
      ∃ p, Memory.readBytes s.env.input s.cur 13 = some p ∧ (headerOf p).width ≠ 0#32 ∧ (headerOf p).height ≠ 0#32 ∧
        t = latchHeader (headerOf p) { s with cur := s.cur + 13 } := by
  simp only [opIhdr] at h
  split at h
  · cases h
  · rename_i hv
    split at h
    · cases h
    · rename_i hl
      rcases withPayload_inv h with ⟨f, hf⟩ | ⟨hlt, hf⟩ | ⟨p, hle, hp, -, hf⟩
      · cases hf
      · cases hf
      · split at hf
        · cases hf
        · rename_i hz
          cases hf
          exact ⟨by simpa using hv, by simpa using hl, hle, p, hp, fun h0 => hz (Or.inl h0), fun h0 => hz (Or.inr h0), rfl⟩

theorem opIdat_raised {len : Word32} {s t : State} {e : DecodeError} (h : opIdat len s = .raised e t) :
    t = s ∨ (s.inLen < s.cur + len.toNat ∧ t = drainInput s) := by
  simp only [opIdat] at h
  split at h
  · cases h; exact Or.inl rfl
  · split at h
    · cases h; exact Or.inl rfl
    · rcases withPayload_inv h with ⟨f, hf⟩ | ⟨hlt, hf⟩ | ⟨p, hle, hp, hl, hf⟩
      · cases hf
      · cases hf; exact Or.inr ⟨hlt, rfl⟩
      · cases hf

/-- What OpIDAT's success means (R88). -/
theorem opIdat_done {len : Word32} {s t : State} (h : opIdat len s = .done t) :
    s.flags.hdrValid = true ∧ s.cur + len.toNat ≤ s.inLen ∧
      ∃ p, Memory.readBytes s.env.input s.cur len.toNat = some p ∧ p.length = len.toNat ∧
        t = appendPayload len.toNat p { s with cur := s.cur + len.toNat } := by
  simp only [opIdat] at h
  split at h
  · cases h
  · rename_i hv
    split at h
    · cases h
    · rcases withPayload_inv h with ⟨f, hf⟩ | ⟨hlt, hf⟩ | ⟨p, hle, hp, hl, hf⟩
      · cases hf
      · cases hf
      · cases hf; exact ⟨by simpa using hv, hle, p, hp, hl, rfl⟩

theorem opIend_raised {len : Word32} {s t : State} {e : DecodeError} (h : opIend len s = .raised e t) : t = s := by
  simp only [opIend] at h
  split at h
  · cases h; rfl
  · cases h

theorem opIend_done {len : Word32} {s t : State} (h : opIend len s = .done t) : len = 0#32 ∧ t = markIend s := by
  simp only [opIend] at h
  split at h
  · cases h
  · rename_i hl; cases h; exact ⟨by simpa using hl, rfl⟩

theorem opOther_raised {len : Word32} {s t : State} {e : DecodeError} (h : opOther len s = .raised e t) :
    s.inLen < s.cur + len.toNat ∧ t = drainInput s := by
  rcases withPayload_inv h with ⟨f, hf⟩ | ⟨hlt, hf⟩ | ⟨p, hle, hp, hl, hf⟩
  · cases hf
  · cases hf; exact ⟨hlt, rfl⟩
  · cases hf

theorem opOther_done {len : Word32} {s t : State} (h : opOther len s = .done t) :
    s.cur + len.toNat ≤ s.inLen ∧ t = { s with cur := s.cur + len.toNat } := by
  rcases withPayload_inv h with ⟨f, hf⟩ | ⟨hlt, hf⟩ | ⟨p, hle, hp, hl, hf⟩
  · cases hf
  · cases hf
  · cases hf; exact ⟨hle, rfl⟩

/-- Everything S_INFLATE can do (R93). -/
theorem execSInflate_next {s t : State} (h : execSInflate s = .next t) :
    s.phase = .inflate ∧
      ((∃ e, t = raise e s.cur s) ∨
       ∃ bpp, s.flags.hdrValid = true ∧ s.hdr.bitDepth = 8#8 ∧ bppOf s.hdr.colorMode = some bpp ∧
        (t = raise .scanlineCapacity s.cur (setGeometry bpp s) ∨
         (∃ e, t = raise e s.cur (afterInflate (setGeometry bpp s))) ∨
         ∃ r, r.length = (setGeometry bpp s).geo.expLen ∧
          t = fillScanlines r (afterInflate (setGeometry bpp s)))) := by
  simp only [execSInflate] at h
  split at h
  · rename_i hp
    refine ⟨hp, ?_⟩
    split at h
    · cases h; exact Or.inl ⟨_, rfl⟩
    · rename_i hv
      split at h
      · cases h; exact Or.inl ⟨_, rfl⟩
      · rename_i hb
        split at h
        · cases h; exact Or.inl ⟨_, rfl⟩
        · rename_i bpp hbpp
          refine Or.inr ⟨bpp, by simpa using hv, by simpa using hb, hbpp, ?_⟩
          split at h
          · cases h; exact Or.inl rfl
          · simp only [callService] at h
            split at h
            · cases h
            · cases h
              simp only [takeAnswer]
              split
              · exact Or.inr (Or.inl ⟨_, rfl⟩)
              · rename_i r _
                split
                · exact Or.inr (Or.inl ⟨_, rfl⟩)
                · rename_i hl
                  exact Or.inr (Or.inr ⟨r, by simpa using hl, rfl⟩)
  · cases h

/-- Everything S_START can do (R76, R145). -/
theorem execSStart_next {s t : State} (h : execSStart s = .next t) :
    (s.phase.busy = true ∧ t = s) ∨ (s.phase.busy = false ∧ s.env.bound = true ∧ t = startDecode s) := by
  simp only [execSStart] at h
  split at h
  · rename_i hb; cases h; exact Or.inl ⟨hb, rfl⟩
  · rename_i hb
    split at h
    · cases h
    · rename_i hbd
      cases h
      exact Or.inr ⟨by simpa using hb, by simpa using hbd, rfl⟩

/-- Where the host makes no move, the next action is the block's. -/
theorem nextAction_wait {s : State} (h : s.env.host.head? = none ∨ s.env.host.head? = some .wait) :
    nextAction s = blockAction (popMove s) := by
  unfold nextAction
  rcases hh : s.env.host with _ | ⟨m, ms⟩
  · cases s with
    | mk _ _ _ _ _ _ _ _ _ _ _ e => cases e; simp_all [popMove]
  · rw [hh] at h
    simp only [List.head?_cons, reduceCtorEq, Option.some.injEq, false_or] at h
    subst h
    rfl

/-- Where the host makes a move, the next action is the host's. -/
theorem nextAction_move {s : State} {m : HostMove} (h : s.env.host.head? = some m) :
    nextAction s = hostAction m (popMove s) := by
  unfold nextAction
  rcases hh : s.env.host with _ | ⟨m', ms⟩
  · simp_all
  · rw [hh] at h
    simp only [List.head?_cons, Option.some.injEq] at h
    subst h
    rfl

end Sys2Proof.Machine
end

