-- ==== Sys2Proof/Laws/PerInstr.lean ====
section
/-! SUPPORT. One statement about every instruction, one lemma per constructor: its encoding has the length of its format's
decoded fields (30_encoding.md R59, R60, R64). -/

namespace Sys2Proof

/-- The number of bytes the decoder consumes for a record of this format: MAGIC; LEN and TYPE; FTYPE; none. -/
def Format.fieldBytes : Format → Nat
  | .sig => 8
  | .chunk => 8
  | .row => 1
  | .unencoded => 0

end Sys2Proof

/-- The encoding of the instruction is as long as its format's decoded fields. -/
def Sys2Proof.Laws.EncodedLength.Statement (i : Sys2Proof.Instr) : Prop :=
  (Sys2Proof.encode i).length = i.format.fieldBytes

namespace Sys2Proof.Laws.EncodedLength

theorem sig (magic : Word64) : Statement (.sig magic) := rfl
theorem ihdr (len : Word32) : Statement (.ihdr len) := rfl
theorem idat (len : Word32) : Statement (.idat len) := rfl
theorem iend (len : Word32) : Statement (.iend len) := rfl
theorem plte (len : Word32) : Statement (.plte len) := rfl
theorem other (len tag : Word32) : Statement (.other len tag) := rfl
theorem none : Statement .none := rfl
theorem sub : Statement .sub := rfl
theorem up : Statement .up := rfl
theorem average : Statement .average := rfl
theorem paeth : Statement .paeth := rfl
theorem unknown (ftype : Byte) : Statement (.unknown ftype) := rfl
theorem sStart : Statement .sStart := rfl
theorem sInflate : Statement .sInflate := rfl

end Sys2Proof.Laws.EncodedLength
end

