-- ==== Sys2Proof/Laws/Row.lean ====
section
/-! SUPPORT. What a row step does, said once for every predictor (43_defilter.md R100, R103, R104). -/

namespace Sys2Proof.Machine

theorem byteAt_eq {m : Memory} {a : Nat} {v : Byte} (h : Memory.read m a = some v) : byteAt m a = v := by
  simp [byteAt, h]

theorem read_eq_byteAt {m : Memory} {n a : Nat} (h : Memory.dense m n) (ha : a < n) :
    Memory.read m a = some (byteAt m a) := by
  obtain ⟨v, hv⟩ := Memory.read_of_dense h ha
  rw [hv, byteAt_eq hv]

theorem fetchByte_dense {sp : Space} {m : Memory} {n a : Nat} (h : Memory.dense m n) (ha : a < n) :
    fetchByte sp m a = .ok (byteAt m a) := by
  simp only [fetchByte, read_eq_byteAt h ha]

/-- The data bytes of row Y lie inside FS. -/
theorem raw_addr_lt {s : State} (h : RowReady s) {x : Nat} (hx : x < s.geo.stride) :
    s.y.toNat * (s.geo.stride + 1) + 1 + x < s.hdr.height.toNat * (s.geo.stride + 1) := by
  have hy := h.2.1
  have : (s.y.toNat + 1) * (s.geo.stride + 1) ≤ s.hdr.height.toNat * (s.geo.stride + 1) :=
    Nat.mul_le_mul_right _ hy
  rw [Nat.succ_mul] at this
  omega

/-- A byte of the row above lies before row Y. -/
theorem above_addr_lt {s : State} {x : Nat} (hy : 0 < s.y.toNat) (hx : x < s.geo.stride) :
    (s.y.toNat - 1) * s.geo.stride + x < s.y.toNat * s.geo.stride := by
  obtain ⟨k, hk⟩ : ∃ k, s.y.toNat = k + 1 := ⟨s.y.toNat - 1, by omega⟩
  rw [hk, Nat.add_sub_cancel, Nat.succ_mul]
  omega

/-- One output byte, where the row's earlier bytes are in place. -/
theorem reconByte_eq {predict : Predictor} {s : State} {rp : Memory} {x : Nat} (h : RowReady s)
    (hx : x < s.geo.stride) (hd : Memory.dense rp (s.y.toNat * s.geo.stride + x)) :
    reconByte predict s rp x =
      .ok (rawAt s x + predict (leftAt s rp x) (aboveAt s rp x) (upperLeftAt s rp x)) := by
  have hbpp := h.2.2.1
  have hraw : fetchByte .fs s.fs (rowBase s + 1 + x) = .ok (rawAt s x) :=
    fetchByte_dense h.2.2.2.1 (raw_addr_lt h hx)
  have hleft : leftOf s rp x = .ok (leftAt s rp x) := by
    simp only [leftOf, neighbour, leftAt, outAddr, decide_eq_true_eq]
    split
    · exact fetchByte_dense hd (by omega)
    · rfl
  have habove : aboveOf s rp x = .ok (aboveAt s rp x) := by
    simp only [aboveOf, neighbour, aboveAt, aboveAddr, decide_eq_true_eq]
    split
    · rename_i hy; exact fetchByte_dense hd (by have := above_addr_lt hy hx; omega)
    · rfl
  have hul : upperLeftOf s rp x = .ok (upperLeftAt s rp x) := by
    simp only [upperLeftOf, neighbour, upperLeftAt, aboveAddr, Bool.and_eq_true, decide_eq_true_eq]
    split
    · rename_i hy; exact fetchByte_dense hd (by have := above_addr_lt hy.2 hx; omega)
    · rfl
  simp only [reconByte, hraw, hleft, habove, hul]

/-- The three neighbours of byte `x` depend only on the bytes before it. -/
theorem neighbours_congr {s : State} {rp rp' : Memory} {x : Nat} (h : RowReady s) (hx : x < s.geo.stride)
    (hr : ∀ a, a < s.y.toNat * s.geo.stride + x → Memory.read rp' a = Memory.read rp a) :
    leftAt s rp' x = leftAt s rp x ∧ aboveAt s rp' x = aboveAt s rp x ∧
      upperLeftAt s rp' x = upperLeftAt s rp x := by
  have hbpp := h.2.2.1
  refine ⟨?_, ?_, ?_⟩
  · simp only [leftAt, byteAt]
    split
    · rw [hr _ (by omega)]
    · rfl
  · simp only [aboveAt, byteAt]
    split
    · rename_i hy; rw [hr _ (by have := above_addr_lt hy hx; omega)]
    · rfl
  · simp only [upperLeftAt, byteAt]
    split
    · rename_i hy; rw [hr _ (by have := above_addr_lt hy.2 hx; omega)]
    · rfl

/-- The bytes `x` to the end of the row. -/
theorem rowLoop_spec (predict : Predictor) (s : State) (h : RowReady s) (n x : Nat) (rp : Memory)
    (hn : x + n = s.geo.stride) (hd : Memory.dense rp (s.y.toNat * s.geo.stride + x)) :
    ∃ rp', rowLoop predict s n x rp = .ok rp' ∧
      Memory.dense rp' (s.y.toNat * s.geo.stride + s.geo.stride) ∧
      (∀ a, a < s.y.toNat * s.geo.stride + x → Memory.read rp' a = Memory.read rp a) ∧
      (∀ k, x ≤ k → k < s.geo.stride → Memory.read rp' (s.y.toNat * s.geo.stride + k) =
        some (rawAt s k + predict (leftAt s rp' k) (aboveAt s rp' k) (upperLeftAt s rp' k))) := by
  induction n generalizing x rp with
  | zero =>
    obtain hx : x = s.geo.stride := by omega
    rw [hx] at hd
    exact ⟨rp, rfl, hd, fun _ _ => rfl, fun k h1 h2 => by omega⟩
  | succ n ih =>
    have hx : x < s.geo.stride := by omega
    have hv := reconByte_eq (predict := predict) h hx hd
    have hd' := Memory.write_dense (rawAt s x + predict (leftAt s rp x) (aboveAt s rp x) (upperLeftAt s rp x)) hd
    obtain ⟨rp', e, hdense, hlow, hrow⟩ := ih (x + 1)
      (Memory.write rp (s.y.toNat * s.geo.stride + x)
        (rawAt s x + predict (leftAt s rp x) (aboveAt s rp x) (upperLeftAt s rp x))) (by omega) hd'
    have hlow' : ∀ a, a < s.y.toNat * s.geo.stride + x → Memory.read rp' a = Memory.read rp a := fun a ha => by
      rw [hlow a (by omega), Memory.read_write_other _ _ _ _ (by omega)]
    refine ⟨rp', ?_, hdense, hlow', fun k h1 h2 => ?_⟩
    · simp only [rowLoop, hv, outAddr]; exact e
    · rcases Nat.eq_or_lt_of_le h1 with rfl | h1
      · obtain ⟨e1, e2, e3⟩ := neighbours_congr h hx hlow'
        rw [hlow _ (by omega), Memory.read_write_same, e1, e2, e3]
      · exact hrow k h1 h2

/-- Everything a row step from a ready state does. -/
theorem rowStep_spec (predict : Predictor) (s : State) (h : RowReady s) :
    RowOutcome s s.flags.unkFilt
      (fun rp x => rawAt s x + predict (leftAt s rp x) (aboveAt s rp x) (upperLeftAt s rp x))
      (rowStep predict s) := by
  obtain ⟨rp, e, hd, hlow, hrow⟩ := rowLoop_spec predict s h s.geo.stride 0 s.rp (by omega)
    (by simpa using h.2.2.2.2)
  have hstep : rowStep predict s = .next (finishRow rp s) := by
    simp only [rowStep, if_pos h.1, e]
  by_cases hy : s.y + 1#32 = s.hdr.height
  · exact ⟨rp, Memory.released, by rw [hstep]; simp only [finishRow, if_pos hy], fun hn => absurd hy hn,
      by rw [Nat.succ_mul]; exact hd, hlow, fun x hx => hrow x (Nat.zero_le x) hx⟩
  · exact ⟨rp, s.fs, by rw [hstep]; simp only [finishRow, if_neg hy, h.1], fun _ => rfl,
      by rw [Nat.succ_mul]; exact hd, hlow, fun x hx => hrow x (Nat.zero_le x) hx⟩

/-- A row step that answers a next state has run its loop. -/
theorem rowStep_next {predict : Predictor} {s t : State} (h : rowStep predict s = .next t) :
    s.phase = .defilter ∧ ∃ rp, rowLoop predict s s.geo.stride 0 s.rp = .ok rp ∧ t = finishRow rp s := by
  simp only [rowStep] at h
  split at h
  · rename_i hp
    split at h
    · cases h
    · rename_i rp e; cases h; exact ⟨hp, rp, e, rfl⟩
  · cases h

/-- The row loop keeps RP in its canonical form. -/
theorem rowLoop_wf {predict : Predictor} {s : State} {n x : Nat} {rp rp' : Memory} (h : Memory.wf rp)
    (e : rowLoop predict s n x rp = .ok rp') : Memory.wf rp' := by
  induction n generalizing x rp with
  | zero => cases e; exact h
  | succ n ih =>
    simp only [rowLoop] at e
    split at e
    · cases e
    · exact ih (Memory.write_wf _ _ _ h) e

end Sys2Proof.Machine
end

