-- ==== Sys2Proof/Tests/Slice0.lean ====
section
/-! SUPPORT. Tests of one step or one function each, with the expected results of 95_test_vectors.md (its ids are cited) or of
the encoding tables; and for every obligation with hypotheses a state and operands that meet them (`wit_` and its name). -/

namespace Sys2Proof.Tests

open Sys2Proof Sys2Proof.Machine

/-! ## Small states and readings -/

/-- The block in a phase with the cursor at `cur` in the stream `bytes`, everything else at its reset value. -/
def reading (p : Phase) (cur : Nat) (bytes : List Byte) : State :=
  { State.resetIn { Env.initial with input := Memory.ofBytes 0 bytes, bound := true } with phase := p, cur := cur }

/-- As `reading`, with an accepted header of one pixel (`colorMode` as given). -/
def withHeader (p : Phase) (cur : Nat) (bytes : List Byte) (depth colorMode : Byte) : State :=
  { reading p cur bytes with
    hdr := { Header.reset with width := 1#32, height := 1#32, bitDepth := depth, colorMode := colorMode }
    flags := { Flags.reset with sigOk := true, hdrValid := true } }

/-- With these capacities. -/
def capped (cp fs : Option Nat) (s : State) : State := { s with env := { s.env with cpCap := cp, fsCap := fs } }

/-- With one answer of the inflate service fixed. -/
def served (compressed : List Byte) (n : Nat) (r : InflateAnswer) (s : State) : State :=
  { s with env := { s.env with service := [ServiceEntry.mk compressed n r] } }

/-- With these coming moves of the host. -/
def hosted (moves : List HostMove) (s : State) : State := { s with env := { s.env with host := moves } }

/-- Unit SDF before row `y` of `h` rows, RP holding `done`, FS the rows `rows` (which start at row `y`, after `y` rows of
zeros). -/
def defiltering (bpp : BitVec 3) (width y h : Nat) (done rows : List Byte) : State :=
  { withHeader .defilter 0 [] 8#8 (if bpp = 4#3 then 6#8 else 2#8) with
    hdr :=
      { Header.reset with
        width := BitVec.ofNat 32 width, height := BitVec.ofNat 32 h, bitDepth := 8#8
        colorMode := if bpp = 4#3 then 6#8 else 2#8 }
    geo :=
      { bpp := bpp, stride := width * bpp.toNat, expLen := h * (width * bpp.toNat + 1) }
    y := BitVec.ofNat 32 y
    fs := Memory.ofBytes 0 (List.replicate (y * (width * bpp.toNat + 1)) 0#8 ++ rows)
    rp := Memory.ofBytes 0 done }

/-- What `f` reads in the next state, if there is one. -/
def after {α : Type} (f : State → α) : StepOutcome → Option α
  | .next t => some (f t)
  | .fault _ => none
  | .refused _ => none

/-- Whether there is a next state. -/
def answers (o : StepOutcome) : Bool := (after (fun _ => true) o).isSome

/-- Phase, error codes and position, cursor. -/
def brief (s : State) : Phase × Nat × Nat × Nat × Nat := (s.phase, s.err.kind.toNat, s.err.sub.toNat, s.err.pos, s.cur)

/-- The bytes of RP in address order. -/
def rpBytes (s : State) : List Byte := s.rp.map Prod.snd

def sigBytes : List Byte := [0x89, 0x50, 0x4E, 0x47, 0x0D, 0x0A, 0x1A, 0x0A]

def ihdrBytes : List Byte :=
  [0x00, 0x00, 0x00, 0x0D, 0x49, 0x48, 0x44, 0x52, 0x00, 0x00, 0x00, 0x01, 0x00, 0x00, 0x00, 0x01, 0x08, 0x02, 0x00, 0x00,
   0x00, 0x90, 0x77, 0x53, 0xDE]

def iendBytes : List Byte := [0x00, 0x00, 0x00, 0x00, 0x49, 0x45, 0x4E, 0x44, 0xAE, 0x42, 0x60, 0x82]

/-- An IDAT chunk with the payload DE AD (vector A8). -/
def idatBytes : List Byte := [0x00, 0x00, 0x00, 0x02, 0x49, 0x44, 0x41, 0x54, 0xDE, 0xAD, 0x00, 0x00, 0x00, 0x00]

/-! ## Well-formedness: each check refuses an ill-formed term (30_encoding.md R68, R70) -/

theorem test_wf_other_refuses_ihdr : ¬WellFormed (.other 13#32 0x49484452#32) := by decide
theorem test_wf_other_refuses_idat : ¬WellFormed (.other 0#32 0x49444154#32) := by decide
theorem test_wf_other_refuses_iend : ¬WellFormed (.other 0#32 0x49454E44#32) := by decide
theorem test_wf_other_refuses_plte : ¬WellFormed (.other 3#32 0x504C5445#32) := by decide
theorem test_wf_unknown_refuses_0_to_4 : ∀ k : Fin 5, ¬WellFormed (.unknown (BitVec.ofNat 8 k.val)) := by decide
theorem test_wf_accepts :
    WellFormed (.sig 0#64) ∧ WellFormed (.ihdr 12#32) ∧ WellFormed (.iend 1#32) ∧ WellFormed (.other 12#32 0x74455874#32) ∧
      WellFormed (.unknown 5#8) ∧ WellFormed (.unknown 255#8) := by decide

/-! ## Decoding words written out from the spec's tables -/

/-- R59. -/
theorem test_decode_sig : decode .sig (sigBytes ++ [0xAA#8]) = .ok (.sig 0x89504E470D0A1A0A#64, [0xAA#8]) := rfl
/-- R60, R68. -/
theorem test_decode_ihdr :
    decode .chunk [0x00, 0x00, 0x00, 0x0D, 0x49, 0x48, 0x44, 0x52] = .ok (.ihdr 13#32, []) := rfl
theorem test_decode_idat :
    decode .chunk [0x01, 0x02, 0x03, 0x04, 0x49, 0x44, 0x41, 0x54] = .ok (.idat 0x01020304#32, []) := rfl
theorem test_decode_iend :
    decode .chunk [0x00, 0x00, 0x00, 0x00, 0x49, 0x45, 0x4E, 0x44] = .ok (.iend 0#32, []) := rfl
theorem test_decode_plte :
    decode .chunk [0xFF, 0xFF, 0xFF, 0xFF, 0x50, 0x4C, 0x54, 0x45] = .ok (.plte 0xFFFFFFFF#32, []) := rfl
/-- R69: the lower-case tag of vector F7 is OTHER. -/
theorem test_decode_other :
    decode .chunk [0x00, 0x00, 0x00, 0x0D, 0x69, 0x68, 0x64, 0x72] = .ok (.other 13#32 0x69686472#32, []) := rfl
/-- R70. -/
theorem test_decode_none : decode .row [0x00] = .ok (.none, []) := rfl
theorem test_decode_sub : decode .row [0x01] = .ok (.sub, []) := rfl
theorem test_decode_up : decode .row [0x02] = .ok (.up, []) := rfl
theorem test_decode_average : decode .row [0x03] = .ok (.average, []) := rfl
theorem test_decode_paeth : decode .row [0x04] = .ok (.paeth, []) := rfl
theorem test_decode_unknown : decode .row [0x07, 0x01] = .ok (.unknown 7#8, [0x01]) := rfl
/-- The two steps no record encodes: no format gives them; S_START is the reading of a row of no bits (log entry 10). -/
theorem test_decode_sStart : decodeTableWord 0 0 = some .sStart := by decide
theorem test_decode_unencoded : decode .unencoded sigBytes = .error .notEncoded := rfl
/-- The table's match values (opcode_table.json). -/
theorem test_table_words :
    decodeTableWord 64 0x89504E470D0A1A0A = some (.sig sigMagic) ∧ decodeTableWord 32 0x49484452 = some (.ihdr 0#32) ∧
      decodeTableWord 32 0x49444154 = some (.idat 0#32) ∧ decodeTableWord 32 0x49454E44 = some (.iend 0#32) ∧
      decodeTableWord 32 0x504C5445 = some (.plte 0#32) ∧ decodeTableWord 32 0x74455874 = some (.other 0#32 0x74455874#32) ∧
      decodeTableWord 8 3 = some .average ∧ decodeTableWord 8 255 = some (.unknown 255#8) ∧ decodeTableWord 16 0 = none := by
  decide
/-- A placed word is what the next step runs. -/
theorem test_placed_words_run :
    answers (step (State.reset.withFetchWord 64 0x89504E470D0A1A0A)) = true ∧
      answers (step (State.reset.withFetchWord 32 0x74455874)) = true ∧
      answers (step (State.reset.withFetchWord 8 4)) = true ∧ answers (step (State.reset.withFetchWord 0 0)) = true ∧
      after State.phase (step (State.reset.withFetchWord 0 0)) = some .sig ∧
      after State.flags (step (State.reset.withFetchWord 32 0x49454E44)) =
        some { Flags.reset with iendSeen := true } := by decide

/-- The encoder, against R60 and R70. -/
theorem test_encode :
    encode (.ihdr 13#32) = [0x00, 0x00, 0x00, 0x0D, 0x49, 0x48, 0x44, 0x52] ∧
      encode (.other 12#32 0x74455874#32) = [0x00, 0x00, 0x00, 0x0C, 0x74, 0x45, 0x58, 0x74] ∧
      encode (.sig sigMagic) = sigBytes ∧ encode .paeth = [0x04] := by decide

/-! ## Instructions, one step each -/

/-- S5. -/
theorem test_sig_accepts :
    after (fun t => (brief t, (statusWord t).toNat)) (exec (.sig sigMagic) (reading .sig 0 sigBytes)) =
      some ((.chunks, 0, 0, 0, 8), 0x209) := by decide
/-- S3. -/
theorem test_sig_refuses :
    after brief (exec (.sig 0x89504E470D0A1A0B#64) (reading .sig 0 sigBytes)) = some (.fault, 1, 1, 0, 8) := by decide
/-- S1, S2: a short read leaves CUR at N. -/
theorem test_sig_short :
    after (fun t => (brief t, (statusWord t).toNat)) (step (reading .sig 0 [])) = some ((.fault, 3, 1, 0, 0), 0x604) ∧
      after brief (step (reading .sig 0 (sigBytes.take 7))) = some (.fault, 3, 1, 0, 7) := by decide
/-- P1's first chunk, with K1's header; the fields of section 2.3. -/
theorem test_ihdr_latches :
    after (fun t => (brief t, t.hdr, t.flags.hdrValid))
      (exec (.ihdr 13#32) (reading .chunks 8 (sigBytes ++ ihdrBytes))) =
      some ((.chunks, 0, 0, 0, 33),
        { Header.reset with width := 1#32, height := 1#32, bitDepth := 8#8, colorMode := 2#8 }, true) := by decide
/-- The second payload of section 2.3. -/
theorem test_ihdr_fields :
    headerOf [0x12, 0x34, 0x56, 0x78, 0x9A, 0xBC, 0xDE, 0xF0, 0x08, 0x02, 0x07, 0x08, 0x09] =
      { width := 0x12345678#32, height := 0x9ABCDEF0#32, bitDepth := 8#8, colorMode := 2#8, compression := 7#8,
        filterMethod := 8#8, interlace := 9#8 } := by decide
/-- A8: the payload goes to CP. -/
theorem test_idat_appends :
    after (fun t => (brief t, t.cpLen, t.cp))
      (exec (.idat 2#32) (withHeader .chunks 33 (sigBytes ++ ihdrBytes ++ idatBytes) 8#8 2#8)) =
      some ((.chunks, 0, 0, 0, 47), 2, [(0, 0xDE#8), (1, 0xAD#8)]) := by decide
/-- X3: the missing header comes before the truncation. -/
theorem test_idat_without_header :
    after brief (exec (.idat 100#32) (reading .chunks 8 (sigBytes ++ [0x00, 0x00, 0x00, 0x64, 0x49, 0x44, 0x41, 0x54, 0x00]))) =
      some (.fault, 1, 4, 8, 16) := by decide
/-- F4. -/
theorem test_iend_marks :
    after (fun t => (brief t, t.flags.iendSeen)) (exec (.iend 0#32) (reading .chunks 8 (sigBytes ++ iendBytes))) =
      some ((.chunks, 0, 0, 0, 20), true) := by decide
/-- K3. -/
theorem test_iend_length :
    after (fun t => (brief t, t.flags.iendSeen))
      (exec (.iend 1#32) (reading .chunks 8 (sigBytes ++ [0x00, 0x00, 0x00, 0x01, 0x49, 0x45, 0x4E, 0x44]))) =
      some ((.fault, 1, 5, 8, 16), false) := by decide
/-- F6: the length is not looked at. -/
theorem test_plte_refused :
    after brief
      (exec (.plte 0xFFFFFFFF#32) (reading .chunks 8 (sigBytes ++ [0xFF, 0xFF, 0xFF, 0xFF, 0x50, 0x4C, 0x54, 0x45]))) =
      some (.fault, 2, 1, 8, 16) := by decide
/-- F11: an empty chunk of the type 00 00 00 00 is skipped. -/
theorem test_other_skips :
    after brief (step (reading .chunks 0 [0, 0, 0, 0, 0, 0, 0, 0, 0, 0, 0, 0])) = some (.chunks, 0, 0, 0, 12) := by decide
/-- F5. -/
theorem test_other_short_payload :
    after brief (step (reading .chunks 8 (sigBytes ++ [0xFF, 0xFF, 0xFF, 0xFF, 0x7A, 0x54, 0x58, 0x74, 1, 2, 3]))) =
      some (.fault, 3, 2, 8, 19) := by decide
/-- F1, F2: a short LEN or TYPE ends the loop. -/
theorem test_loop_ends :
    after brief (step (reading .chunks 8 (sigBytes ++ [0, 0, 0]))) = some (.inflate, 0, 0, 0, 11) ∧
      after brief (step (reading .chunks 8 (sigBytes ++ [0, 0, 0, 0, 0x49, 0x45]))) = some (.inflate, 0, 0, 0, 14) := by
  decide
/-- A7: a permitted oracle's answer for no compressed bytes. -/
theorem test_inflate_fills :
    after (fun t => (t.phase, t.geo, t.fs.map Prod.snd))
      (exec .sInflate (served [] 4 (.ok [0x00, 0x05, 0x06, 0x07]) (withHeader .inflate 0 [] 8#8 2#8))) =
      some (.defilter, { bpp := 3#3, stride := 3, expLen := 4 }, [0x00, 0x05, 0x06, 0x07]) := by decide
/-- A15: exact products of 34 and 66 bits, then the capacity check. -/
theorem test_inflate_exact_geometry :
    after (fun t => (brief t, t.geo))
      (exec .sInflate (capped none (some 4294967296)
        { withHeader .inflate 0 [] 8#8 6#8 with
          hdr := { Header.reset with width := 0xFFFFFFFF#32, height := 0xFFFFFFFF#32, bitDepth := 8#8, colorMode := 6#8 } })) =
      some ((.fault, 5, 2, 0, 0), { bpp := 4#3, stride := 17179869180, expLen := 73786976264773435395 }) := by decide
/-- H2. -/
theorem test_start :
    after (fun t => (brief t, (statusWord t).toNat)) (exec .sStart (reading .idle 0 sigBytes)) =
      some ((.sig, 0, 0, 0, 0), 0x101) := by decide
/-- H6, H7, H9: START while BUSY is ignored; RESET wins. -/
theorem test_ctrl :
    after brief (step (hosted [.write 0 1#32] (reading .chunks 8 sigBytes))) = some (.chunks, 0, 0, 0, 8) ∧
      after brief (step (hosted [.write 0 2#32] (reading .chunks 8 sigBytes))) = some (.idle, 0, 0, 0, 0) ∧
      after brief (step (hosted [.write 0 3#32] (reading .chunks 8 sigBytes))) = some (.idle, 0, 0, 0, 0) := by decide

/-- V1. -/
theorem test_none_v1 :
    after rpBytes (exec .none (defiltering 4#3 2 1 3 [0x11, 0x22, 0x33, 0x44, 0x55, 0x66, 0x77, 0x88]
      [0, 0x00, 0x7F, 0x80, 0xFF, 0x01, 0x02, 0x03, 0x04])) =
      some [0x11, 0x22, 0x33, 0x44, 0x55, 0x66, 0x77, 0x88, 0x00, 0x7F, 0x80, 0xFF, 0x01, 0x02, 0x03, 0x04] := by decide
/-- V2. -/
theorem test_sub_v2 :
    after rpBytes (exec .sub (defiltering 3#3 3 0 2 [] [1, 0x10, 0x20, 0x30, 0x01, 0x02, 0x03, 0xF0, 0xF0, 0xF0])) =
      some [0x10, 0x20, 0x30, 0x11, 0x22, 0x33, 0x01, 0x12, 0x23] := by decide
/-- V6. -/
theorem test_up_v6 :
    after rpBytes (exec .up (defiltering 3#3 2 1 2 [0xFF, 0xFE, 0x80, 0x00, 0x7F, 0x10] [2, 1, 2, 3, 4, 5, 6])) =
      some [0xFF, 0xFE, 0x80, 0x00, 0x7F, 0x10, 0x00, 0x00, 0x83, 0x04, 0x84, 0x16] := by decide
/-- V9: the sum of 9 bits. -/
theorem test_average_v9 :
    after rpBytes (exec .average
      (defiltering 3#3 2 1 2 [0xFF, 0xFF, 0xFF, 0xFF, 0xFF, 0xFF] [3, 0xFF, 0xFF, 0xFF, 0, 0, 0])) =
      some [0xFF, 0xFF, 0xFF, 0xFF, 0xFF, 0xFF, 0x7E, 0x7E, 0x7E, 0xBE, 0xBE, 0xBE] := by decide
/-- V7: the first row. -/
theorem test_average_v7 :
    after rpBytes (exec .average (defiltering 3#3 2 0 2 [] [3, 0x64, 0x65, 0x66, 0x0A, 0x0A, 0x0A])) =
      some [0x64, 0x65, 0x66, 0x3C, 0x3C, 0x3D] := by decide
/-- V14. -/
theorem test_paeth_v14 :
    after rpBytes (exec .paeth
      (defiltering 3#3 2 1 2 [0x0F, 0x0F, 0x0F, 0x14, 0x14, 0x14] [4, 0xFB, 0xFB, 0xFB, 0, 0, 0])) =
      some [0x0F, 0x0F, 0x0F, 0x14, 0x14, 0x14, 0x0A, 0x0A, 0x0A, 0x0F, 0x0F, 0x0F] := by decide
/-- V15: the exact p. -/
theorem test_paeth_v15 :
    after rpBytes (exec .paeth
      (defiltering 3#3 2 1 2 [0x0A, 0x00, 0x00, 0x64, 0x00, 0x00] [4, 0xC8, 0, 0, 0, 0, 0])) =
      some [0x0A, 0x00, 0x00, 0x64, 0x00, 0x00, 0xD2, 0x00, 0x00, 0xD2, 0x00, 0x00] := by decide
/-- P4, row 0 of two: UNKFILT and STATUS. -/
theorem test_unknown_p4 :
    after (fun t => (rpBytes t, (statusWord t).toNat, t.y))
      (exec (.unknown 7#8)
        { defiltering 4#3 1 0 2 [] [7, 1, 2, 3, 4] with
          flags := { sigOk := true, hdrValid := true, iendSeen := true, unkFilt := false } }) =
      some ([1, 2, 3, 4], 0x479, 1#32) := by decide
/-- P1's last row: FS is released, DONE. -/
theorem test_last_row :
    after (fun t => (t.phase, t.y, t.fs)) (exec .none (defiltering 3#3 1 1 2 [1, 2, 3] [0, 4, 5, 6])) =
      some (.done, 2#32, []) := by decide

/-! ## The predictors (section 2.6) -/

theorem test_paeth_ties :
    predictPaeth 3#8 0#8 1#8 = 3#8 ∧ predictPaeth 0#8 3#8 1#8 = 3#8 ∧ predictPaeth 0#8 0#8 255#8 = 0#8 ∧
      predictPaeth 210#8 100#8 10#8 = 210#8 ∧ predictPaeth 127#8 128#8 255#8 = 127#8 := by decide
theorem test_average_carries :
    predictAverage 255#8 255#8 0#8 = 255#8 ∧ predictAverage 126#8 255#8 0#8 = 190#8 ∧ predictAverage 0#8 1#8 0#8 = 0#8 := by
  decide

/-! ## The host's side -/

/-- H1. -/
theorem test_reset_status : statusWord State.reset = 0x00000000#32 := by decide
/-- P1 and S1: STATUS in INFLATE, DEFILTER, DONE and FAULT. -/
theorem test_status_codes :
    [Phase.inflate, Phase.defilter, Phase.done].map (fun p =>
        (statusWord { reading p 0 [] with
          flags := { sigOk := true, hdrValid := true, iendSeen := true, unkFilt := false } }).toNat) =
      [0x339, 0x439, 0x53A] ∧ (statusWord (reading .fault 0 [])).toNat = 0x604 := by decide
/-- 20_memory.md R40: the bytes bound are IN from address 0 on, in place of the stream before. -/
theorem test_bind :
    after (fun t => (t.phase, t.env.input, t.env.bound)) (step (hosted [.bind [7, 8]] (reading .done 0 sigBytes))) =
        some (.done, [(0, 7#8), (1, 8#8)], true) ∧
      after (fun t => (t.env.input, t.env.bound)) (step (hosted [.bind [9]] State.reset)) = some ([(0, 9#8)], true) := by
  decide
/-- E2: the pixels of P1's output. -/
theorem test_pixels_e2 :
    pixels { width := 2#32, height := 2#32, bpp := 4#3, flags := Flags.reset
             rp := Memory.ofBytes 0 [255, 0, 0, 255, 0, 255, 0, 255, 0, 0, 255, 255, 255, 255, 255, 255] } =
      some [Pixel.mk 255#8 0#8 0#8 255#8, Pixel.mk 0#8 255#8 0#8 255#8, Pixel.mk 0#8 0#8 255#8 255#8,
            Pixel.mk 255#8 255#8 255#8 255#8] := by decide
/-- 44_pixel_assembler.md R119: three bytes a pixel, the fourth value 255. -/
theorem test_pixels_rgb :
    pixels { width := 1#32, height := 1#32, bpp := 3#3, flags := Flags.reset, rp := Memory.ofBytes 0 [1, 2, 3] } =
      some [Pixel.mk 1#8 2#8 3#8 255#8] := by decide

/-! ## Witnesses: for every obligation with hypotheses, a state and operands that meet them

A witness states the hypotheses of the obligation of its name, on concrete data; for an obligation of several clauses, one
conjunct per clause, at the boundary of its range where it has one. -/

theorem wit_DecodeOfEncode :
    (WellFormed (.other 0xFFFFFFFF#32 0x74455874#32) ∧ (Instr.other 0xFFFFFFFF#32 0x74455874#32).format ≠ .unencoded) ∧
      (WellFormed (.unknown 5#8) ∧ (Instr.unknown 5#8).format ≠ .unencoded) ∧
      (WellFormed (.sig 0#64) ∧ (Instr.sig 0#64).format ≠ .unencoded) := by decide

theorem wit_DecodedRecordReencodes : decode .row [0x05, 0x01] = .ok (.unknown 5#8, [0x01]) := rfl

theorem wit_OnlyShortRecordsAreRejected :
    (sigBytes.take 7).length < 8 ∧ (sigBytes.take 3).length < 4 ∧
      (4 ≤ (sigBytes.take 4).length ∧ (sigBytes.take 7).length < 8) ∧ 8 ≤ sigBytes.length ∧ 1 ≤ (sigBytes.take 1).length := by
  decide

theorem wit_TypeSelectsTheChunkOperation :
    [0x69#8, 0x68#8, 0x64#8, 0x72#8] ≠ [0x49#8, 0x48#8, 0x44#8, 0x52#8] ∧
      [0x69#8, 0x68#8, 0x64#8, 0x72#8] ≠ [0x49#8, 0x44#8, 0x41#8, 0x54#8] ∧
      [0x69#8, 0x68#8, 0x64#8, 0x72#8] ≠ [0x49#8, 0x45#8, 0x4E#8, 0x44#8] ∧
      [0x69#8, 0x68#8, 0x64#8, 0x72#8] ≠ [0x50#8, 0x4C#8, 0x54#8, 0x45#8] := by decide

/-! ### The step -/

theorem wit_StepRunsTheDecodedInstruction_sig :
    BlockMoves (reading .sig 0 sigBytes) ∧ (reading .sig 0 sigBytes).phase = .sig ∧
      (reading .sig 0 sigBytes).cur + 8 ≤ (reading .sig 0 sigBytes).inLen ∧
      Memory.readBytes (reading .sig 0 sigBytes).env.input (reading .sig 0 sigBytes).cur 8 = some sigBytes ∧
      decode .sig sigBytes = .ok (.sig sigMagic, []) := ⟨by decide, by decide, by decide, by decide, rfl⟩

theorem wit_StepRunsTheDecodedInstruction_chunk :
    BlockMoves (hosted [.wait] (reading .chunks 0 iendBytes)) ∧ (reading .chunks 0 iendBytes).phase = .chunks ∧
      (reading .chunks 0 iendBytes).cur + 8 ≤ (reading .chunks 0 iendBytes).inLen ∧
      Memory.readBytes (reading .chunks 0 iendBytes).env.input 0 8 = some (iendBytes.take 8) ∧
      decode .chunk (iendBytes.take 8) = .ok (.iend 0#32, []) := ⟨by decide, by decide, by decide, by decide, rfl⟩

theorem wit_StepRunsTheDecodedInstruction_row :
    BlockMoves (defiltering 3#3 1 0 1 [] [4, 1, 2, 3]) ∧ (defiltering 3#3 1 0 1 [] [4, 1, 2, 3]).phase = .defilter ∧
      Memory.read (defiltering 3#3 1 0 1 [] [4, 1, 2, 3]).fs 0 = some 4#8 ∧
      decode .row [4#8] = .ok (.paeth, []) := ⟨by decide, by decide, by decide, rfl⟩

theorem wit_StepRunsTheDecodedInstruction_steps :
    (BlockMoves (reading .inflate 0 []) ∧ (reading .inflate 0 []).phase = .inflate) ∧
      (hosted [.write 0 1#32] (reading .idle 0 [])).env.host.head? = some (.write 0 1#32) ∧
      (1#32 : Word32).getLsbD 0 = true ∧ (1#32 : Word32).getLsbD 1 = false := by decide

/-- No byte left, and seven bytes left. -/
theorem wit_ShortLengthOrTypeEndsTheLoop :
    ∀ s ∈ [reading .chunks 8 sigBytes, reading .chunks 8 (sigBytes ++ [0, 0, 0, 0, 0, 0, 0])],
      BlockMoves s ∧ s.phase = .chunks ∧ InputOk s ∧ s.cur ≤ s.inLen ∧ s.inLen < s.cur + 8 := by decide

theorem wit_ShortSignatureFaults :
    ∀ s ∈ [reading .sig 0 [], reading .sig 0 (sigBytes.take 7)],
      BlockMoves s ∧ s.phase = .sig ∧ InputOk s ∧ s.cur ≤ s.inLen ∧ s.inLen < s.cur + 8 := by decide

theorem wit_IdleDoneAndFaultRest :
    ∀ s ∈ [reading .idle 0 [], reading .done 0 [], reading .fault 0 []],
      BlockMoves s ∧ (s.phase = .idle ∨ s.phase = .done ∨ s.phase = .fault) := by decide

theorem wit_FaultIsLeftOnlyByResetOrStart :
    ∀ s ∈ [reading .fault 0 [], hosted [.hardReset] (reading .fault 0 []), hosted [.write 0 2#32] (reading .fault 0 []),
      hosted [.write 0 1#32] (reading .fault 0 [])], s.phase = .fault ∧ answers (step s) = true := by decide

theorem wit_PhaseTransfersFollowTheTable :
    ∀ s ∈ [reading .idle 0 [], reading .sig 0 sigBytes, reading .chunks 0 iendBytes, reading .inflate 0 [],
      defiltering 3#3 1 0 1 [] [4, 1, 2, 3], reading .done 0 [], reading .fault 0 []],
      BlockMoves s ∧ answers (step s) = true := by decide

/-! ### The host's side -/

/-- Every phase occurs; the first zero bit; a write of STATUS. -/
theorem wit_StatusBits :
    (reading .idle 0 []).phase = .idle ∧ (reading .sig 0 []).phase = .sig ∧ (reading .chunks 0 []).phase = .chunks ∧
      (reading .inflate 0 []).phase = .inflate ∧ (reading .defilter 0 []).phase = .defilter ∧
      (reading .done 0 []).phase = .done ∧ (reading .fault 0 []).phase = .fault ∧
    11 ≤ 11 ∧ (hosted [.write 1 5#32] (reading .chunks 0 [])).env.host.head? = some (.write 1 5#32) := by decide

theorem wit_RegisterMap :
    17 < 18 ∧ (17 : Nat) ≠ 0 ∧
      (hosted [.write 17 5#32] (reading .idle 0 [])).env.host.head? = some (.write 17 5#32) := by decide

/-- RESET (with START); neither bit; START while BUSY; START in IDLE with a stream bound; a bind after reset; a bind while
BUSY. -/
theorem wit_CtrlCommands :
    (∀ v : Word32, (hosted [.write 0 v] (reading .sig 0 [])).env.host.head? = some (.write 0 v)) ∧
      (3#32 : Word32).getLsbD 1 = true ∧
      ((0xFFFFFFFC#32 : Word32).getLsbD 1 = false ∧ (0xFFFFFFFC#32 : Word32).getLsbD 0 = false) ∧
      ((1#32 : Word32).getLsbD 1 = false ∧ (1#32 : Word32).getLsbD 0 = true ∧ (reading .sig 0 []).phase.busy = true) ∧
      ((reading .idle 0 []).phase.busy = false ∧ (reading .idle 0 []).env.bound = true) ∧
      ((hosted [.bind sigBytes] State.reset).env.host.head? = some (.bind sigBytes) ∧
        (hosted [.bind sigBytes] State.reset).phase.busy = false) ∧
      ((hosted [.bind []] (reading .defilter 0 [])).env.host.head? = some (.bind []) ∧
        (hosted [.bind []] (reading .defilter 0 [])).phase.busy = true) :=
  ⟨fun _ => rfl, by decide⟩

theorem wit_SStartBeginsADecode :
    ∀ s ∈ [reading .idle 0 [], reading .done 9 [], reading .fault 9 []], s.phase.busy = false ∧ s.env.bound = true := by
  decide

theorem wit_StartWhileBusyOrUnbound :
    (reading .defilter 0 []).phase.busy = true ∧ (State.reset.phase.busy = false ∧ State.reset.env.bound = false) := by decide

theorem wit_HardAndSoftResetAgree :
    (hosted [.hardReset] (reading .chunks 0 [])).env.host.head? = some .hardReset ∧
      ((2#32 : Word32).getLsbD 1 = true ∧
        (hosted [.write 0 2#32] (reading .chunks 0 [])).env.host.head? = some (.write 0 2#32)) := by decide

theorem wit_OutputOnlyWhenDone : (reading .defilter 0 []).phase ≠ .done ∧ (reading .done 0 []).phase = .done := by decide

theorem wit_InstructionsLeaveTheHostsSide :
    answers (exec (.sig 0#64) (reading .sig 0 sigBytes)) = true ∧
      answers (exec .sInflate (served [] 4 .fail (withHeader .inflate 0 [] 8#8 2#8))) = true := by decide

/-! ### Stream reads, the signature -/

/-- All bytes there, up to the last; one too few. -/
theorem wit_StreamReadRule :
    InputOk (reading .chunks 4 sigBytes) ∧ (reading .chunks 4 sigBytes).cur ≤ (reading .chunks 4 sigBytes).inLen ∧
      (reading .chunks 4 sigBytes).cur + 4 ≤ (reading .chunks 4 sigBytes).inLen ∧
      (reading .chunks 4 sigBytes).inLen < (reading .chunks 4 sigBytes).cur + 5 := by decide

theorem wit_SignatureAccepted :
    (reading .sig 0 sigBytes).phase = .sig ∧ InputOk (reading .sig 0 sigBytes) ∧
      (reading .sig 0 sigBytes).cur + 8 ≤ (reading .sig 0 sigBytes).inLen := by decide

theorem wit_SignatureRefused :
    (∀ s ∈ [reading .sig 0 sigBytes, reading .sig 0 (sigBytes.take 7)], s.phase = .sig ∧ InputOk s ∧ s.cur ≤ s.inLen) ∧
      ((reading .sig 0 sigBytes).cur + 8 ≤ (reading .sig 0 sigBytes).inLen ∧
        0x89504E470D0A1A0B#64 ≠ 0x89504E470D0A1A0A#64) ∧
      (reading .sig 0 (sigBytes.take 7)).inLen < (reading .sig 0 (sigBytes.take 7)).cur + 8 := by decide

/-! ### The chunk operations -/

/-- K1's header chunk. -/
theorem wit_IhdrLatchesTheHeader :
    ChunkReady (reading .chunks 0 ihdrBytes) 17 ∧ (reading .chunks 0 ihdrBytes).flags.hdrValid = false ∧
      Memory.readBytes (reading .chunks 0 ihdrBytes).env.input 8 13 =
        some [0, 0, 0, 1, 0, 0, 0, 1, 8, 2, 0, 0, 0] ∧
      be32 0#8 0#8 0#8 1#8 ≠ 0#32 := by decide

/-- K4 (duplicate); K2 (length 12, no payload); X2 (12 of 13 bytes); K7 (zero width). -/
theorem wit_IhdrErrors :
    (ChunkReady (withHeader .chunks 0 (ihdrBytes.take 8) 8#8 2#8) 0 ∧
        (withHeader .chunks 0 (ihdrBytes.take 8) 8#8 2#8).flags.hdrValid = true) ∧
      (ChunkReady (reading .chunks 0 (ihdrBytes.take 8)) 0 ∧
        (reading .chunks 0 (ihdrBytes.take 8)).flags.hdrValid = false ∧ 12#32 ≠ 13#32) ∧
      (ChunkReady (reading .chunks 0 (ihdrBytes.take 20)) 0 ∧
        (reading .chunks 0 (ihdrBytes.take 20)).inLen < (reading .chunks 0 (ihdrBytes.take 20)).cur + 21) ∧
      (ChunkReady (reading .chunks 0 (ihdrBytes.take 8 ++ List.replicate 13 0#8)) 0 ∧
        (reading .chunks 0 (ihdrBytes.take 8 ++ List.replicate 13 0#8)).cur + 21 ≤
          (reading .chunks 0 (ihdrBytes.take 8 ++ List.replicate 13 0#8)).inLen ∧
        Memory.readBytes (reading .chunks 0 (ihdrBytes.take 8 ++ List.replicate 13 0#8)).env.input 8 13 =
          some [0, 0, 0, 0, 0, 0, 0, 0, 0, 0, 0, 0, 0] ∧
        be32 0#8 0#8 0#8 0#8 = 0#32) := by decide

/-- With the capacity just large enough. -/
theorem wit_IdatAppendsThePayload :
    ChunkReady (capped (some 2) none (withHeader .chunks 0 idatBytes 8#8 2#8)) ((2#32 : Word32).toNat + 4) ∧
      (capped (some 2) none (withHeader .chunks 0 idatBytes 8#8 2#8)).flags.hdrValid = true ∧
      (∀ cap, (capped (some 2) none (withHeader .chunks 0 idatBytes 8#8 2#8)).env.cpCap = some cap →
        (capped (some 2) none (withHeader .chunks 0 idatBytes 8#8 2#8)).cpLen + (2#32 : Word32).toNat ≤ cap) ∧
      Memory.readBytes (withHeader .chunks 0 idatBytes 8#8 2#8).env.input 8 (2#32 : Word32).toNat = some [0xDE, 0xAD] := by
  refine ⟨by decide, by decide, fun cap h => ?_, by decide⟩
  cases h
  decide

/-- K5; K13 (one byte too little capacity); P5 (one payload byte missing). -/
theorem wit_IdatErrors :
    (ChunkReady (reading .chunks 0 idatBytes) 0 ∧ (reading .chunks 0 idatBytes).flags.hdrValid = false) ∧
      (ChunkReady (capped (some 1) none (withHeader .chunks 0 idatBytes 8#8 2#8)) 0 ∧
        (capped (some 1) none (withHeader .chunks 0 idatBytes 8#8 2#8)).env.cpCap = some 1 ∧
        1 < (capped (some 1) none (withHeader .chunks 0 idatBytes 8#8 2#8)).cpLen + (2#32 : Word32).toNat) ∧
      (ChunkReady (withHeader .chunks 0 (idatBytes.take 9) 8#8 2#8) 0 ∧
        (withHeader .chunks 0 (idatBytes.take 9) 8#8 2#8).flags.hdrValid = true ∧
        (withHeader .chunks 0 (idatBytes.take 9) 8#8 2#8).env.cpCap = none ∧
        (withHeader .chunks 0 (idatBytes.take 9) 8#8 2#8).inLen <
          (withHeader .chunks 0 (idatBytes.take 9) 8#8 2#8).cur + 8 + (2#32 : Word32).toNat) := by decide

/-- F4; K3 with nothing after TYPE. -/
theorem wit_IendMarksTheEnd :
    ChunkReady (reading .chunks 0 iendBytes) 4 ∧ (ChunkReady (reading .chunks 0 (iendBytes.take 8)) 0 ∧ 1#32 ≠ 0#32) := by
  decide

theorem wit_PlteIsRefused : ChunkReady (reading .chunks 0 [0xFF, 0xFF, 0xFF, 0xFF, 0x50, 0x4C, 0x54, 0x45]) 0 := by decide

/-- F11 (an empty chunk); F5. -/
theorem wit_OtherIsSkipped :
    ChunkReady (reading .chunks 0 (List.replicate 12 0#8)) ((0#32 : Word32).toNat + 4) ∧
      (ChunkReady (reading .chunks 0 [0xFF, 0xFF, 0xFF, 0xFF, 0x7A, 0x54, 0x58, 0x74, 1, 2, 3]) 0 ∧
        (reading .chunks 0 [0xFF, 0xFF, 0xFF, 0xFF, 0x7A, 0x54, 0x58, 0x74, 1, 2, 3]).inLen <
          (reading .chunks 0 [0xFF, 0xFF, 0xFF, 0xFF, 0x7A, 0x54, 0x58, 0x74, 1, 2, 3]).cur + 8
            + (0xFFFFFFFF#32 : Word32).toNat) := by decide

/-- F10 (no checksum byte), F3, an IDAT and an IHDR with one checksum byte missing. -/
theorem wit_ShortChecksumFaults :
    (ChunkReady (reading .chunks 0 (List.replicate 8 0#8)) 0 ∧
        (reading .chunks 0 (List.replicate 8 0#8)).cur + 8 + (0#32 : Word32).toNat ≤
          (reading .chunks 0 (List.replicate 8 0#8)).inLen ∧
        (reading .chunks 0 (List.replicate 8 0#8)).inLen <
          (reading .chunks 0 (List.replicate 8 0#8)).cur + 12 + (0#32 : Word32).toNat) ∧
      (ChunkReady (reading .chunks 0 (iendBytes.take 11)) 0 ∧
        (reading .chunks 0 (iendBytes.take 11)).inLen < (reading .chunks 0 (iendBytes.take 11)).cur + 12) ∧
      (ChunkReady (withHeader .chunks 0 (idatBytes.take 13) 8#8 2#8) 0 ∧
        (withHeader .chunks 0 (idatBytes.take 13) 8#8 2#8).flags.hdrValid = true ∧
        (withHeader .chunks 0 (idatBytes.take 13) 8#8 2#8).env.cpCap = none ∧
        (withHeader .chunks 0 (idatBytes.take 13) 8#8 2#8).cur + 8 + (2#32 : Word32).toNat ≤
          (withHeader .chunks 0 (idatBytes.take 13) 8#8 2#8).inLen ∧
        (withHeader .chunks 0 (idatBytes.take 13) 8#8 2#8).inLen <
          (withHeader .chunks 0 (idatBytes.take 13) 8#8 2#8).cur + 12 + (2#32 : Word32).toNat) ∧
      (ChunkReady (reading .chunks 0 (ihdrBytes.take 24)) 0 ∧
        (reading .chunks 0 (ihdrBytes.take 24)).flags.hdrValid = false ∧
        (reading .chunks 0 (ihdrBytes.take 24)).cur + 21 ≤ (reading .chunks 0 (ihdrBytes.take 24)).inLen ∧
        (reading .chunks 0 (ihdrBytes.take 24)).inLen < (reading .chunks 0 (ihdrBytes.take 24)).cur + 25 ∧
        Memory.readBytes (reading .chunks 0 (ihdrBytes.take 24)).env.input 8 13 =
          some [0, 0, 0, 1, 0, 0, 0, 1, 8, 2, 0, 0, 0] ∧
        be32 0#8 0#8 0#8 1#8 ≠ 0#32) := by decide

/-- The IDAT chunk with another checksum. -/
theorem wit_ChunkReadsOnlyItsPayload :
    (Instr.idat 2#32).format = .chunk ∧ InputOk (withHeader .chunks 0 idatBytes 8#8 2#8) ∧
      Memory.dense (Memory.ofBytes 0 (idatBytes.take 10 ++ [1, 2, 3, 4])) (withHeader .chunks 0 idatBytes 8#8 2#8).inLen ∧
      (∀ a, 0 + 8 ≤ a → a < 0 + 8 + payloadLength (.idat 2#32) →
        Memory.read (Memory.ofBytes 0 (idatBytes.take 10 ++ [1, 2, 3, 4])) a =
          Memory.read (withHeader .chunks 0 idatBytes 8#8 2#8).env.input a) ∧
      answers (exec (.idat 2#32) (withHeader .chunks 0 idatBytes 8#8 2#8)) = true := by
  refine ⟨by decide, by decide, by decide, ?_, by decide⟩
  intro a h1 h2
  have h3 : payloadLength (.idat 2#32) = 2 := by decide
  have : a = 8 ∨ a = 9 := by omega
  rcases this with rfl | rfl <;> decide

/-- Two chunks that carry DE and AD. -/
def splitBytes : List Byte :=
  [0, 0, 0, 1, 0x49, 0x44, 0x41, 0x54, 0xDE, 0, 0, 0, 0, 0, 0, 0, 1, 0x49, 0x44, 0x41, 0x54, 0xAD, 0, 0, 0, 0]

theorem wit_SplitIdatGivesTheSamePayload :
    (2#32 : Word32).toNat = (1#32 : Word32).toNat + (1#32 : Word32).toNat ∧
      Memory.readBytes (withHeader .chunks 0 idatBytes 8#8 2#8).env.input 8 (2#32 : Word32).toNat = some ([0xDE] ++ [0xAD]) ∧
      Memory.readBytes (Memory.ofBytes 0 splitBytes) 8 (1#32 : Word32).toNat = some [0xDE] ∧
      Memory.readBytes (Memory.ofBytes 0 splitBytes) (0 + 12 + (1#32 : Word32).toNat + 8) (1#32 : Word32).toNat =
        some [0xAD] ∧
      after State.phase (exec (.idat 2#32) (withHeader .chunks 0 idatBytes 8#8 2#8)) = some .chunks ∧
      after State.phase
        (exec (.idat 1#32) (withInput (Memory.ofBytes 0 splitBytes) (withHeader .chunks 0 idatBytes 8#8 2#8))) =
        some .chunks ∧
      after (fun first => after State.phase (exec (.idat 1#32) first))
        (exec (.idat 1#32) (withInput (Memory.ofBytes 0 splitBytes) (withHeader .chunks 0 idatBytes 8#8 2#8))) =
        some (some .chunks) := by decide

/-! ### The inflate adapter -/

/-- A7 with the capacity just large enough (A13); both colour modes. -/
theorem wit_SInflateFillsTheScanlines :
    ∀ c ∈ [(3#3, 2#8, [0#8, 5#8, 6#8, 7#8]), ((4#3 : BitVec 3), (6#8 : Byte), [0#8, 5#8, 6#8, 7#8, 8#8])],
      let s := capped none (some c.2.2.length)
        (served [] c.2.2.length (.ok c.2.2) (withHeader .inflate 0 [] 8#8 c.2.1))
      s.phase = .inflate ∧ s.flags.hdrValid = true ∧ s.hdr.bitDepth = 8#8 ∧
        (s.hdr.colorMode = 6#8 ∧ c.1 = 4#3 ∨ s.hdr.colorMode = 2#8 ∧ c.1 = 3#3) ∧ s.fs = [] ∧
        s.env.fsCap = some (s.hdr.height.toNat * (s.hdr.width.toNat * c.1.toNat + 1)) ∧
        Memory.readBytes s.cp 0 s.cpLen = some [] ∧
        askService s.env [] (s.hdr.height.toNat * (s.hdr.width.toNat * c.1.toNat + 1)) = .ok c.2.2 ∧
        c.2.2.length = s.hdr.height.toNat * (s.hdr.width.toNat * c.1.toNat + 1) := by decide

/-- S5; A2 (bit depth 16, colour mode 3); A4; A12. -/
theorem wit_SInflateChecks :
    ((reading .inflate 0 []).phase = .inflate ∧ (reading .inflate 0 []).flags.hdrValid = false) ∧
      ((withHeader .inflate 0 [] 16#8 3#8).flags.hdrValid = true ∧ (withHeader .inflate 0 [] 16#8 3#8).hdr.bitDepth ≠ 8#8) ∧
      ((withHeader .inflate 0 [] 8#8 3#8).flags.hdrValid = true ∧ (withHeader .inflate 0 [] 8#8 3#8).hdr.bitDepth = 8#8 ∧
        (withHeader .inflate 0 [] 8#8 3#8).hdr.colorMode ≠ 6#8 ∧ (withHeader .inflate 0 [] 8#8 3#8).hdr.colorMode ≠ 2#8) ∧
      ((capped none (some 3) (withHeader .inflate 0 [] 8#8 2#8)).phase = .inflate ∧
        (capped none (some 3) (withHeader .inflate 0 [] 8#8 2#8)).env.fsCap = some 3 ∧
        3 < (withHeader .inflate 0 [] 8#8 2#8).hdr.height.toNat *
          ((withHeader .inflate 0 [] 8#8 2#8).hdr.width.toNat * (3#3 : BitVec 3).toNat + 1)) := by decide

/-- A6; A9 and A10. -/
theorem wit_SInflateAnswerErrors :
    (withHeader .inflate 0 [] 8#8 2#8).phase = .inflate ∧ (withHeader .inflate 0 [] 8#8 2#8).flags.hdrValid = true ∧
      (withHeader .inflate 0 [] 8#8 2#8).hdr.colorMode = 2#8 ∧ (withHeader .inflate 0 [] 8#8 2#8).env.fsCap = none ∧
      Memory.readBytes (withHeader .inflate 0 [] 8#8 2#8).cp 0 (withHeader .inflate 0 [] 8#8 2#8).cpLen = some [] ∧
      askService (served [] 4 .fail (withHeader .inflate 0 [] 8#8 2#8)).env [] 4 = .fail ∧
      askService (served [] 4 (.ok []) (withHeader .inflate 0 [] 8#8 2#8)).env [] 4 = .ok [] ∧ ([] : List Byte).length ≠ 4 ∧
      askService (served [] 4 (.ok [0, 1, 2, 3, 4]) (withHeader .inflate 0 [] 8#8 2#8)).env [] 4 = .ok [0, 1, 2, 3, 4] := by
  decide

/-! ### The rows -/

/-- The first of two rows, and the last. -/
theorem wit_rows_ready :
    RowReady (defiltering 3#3 2 0 2 [] (List.replicate 14 1#8)) ∧
      RowReady (defiltering 3#3 2 1 2 [1, 2, 3, 4, 5, 6] (List.replicate 7 2#8)) := by decide

theorem wit_NoneCopiesTheRow : RowReady (defiltering 4#3 1 0 1 [] [0, 1, 2, 3, 4]) := by decide
theorem wit_SubAddsLeft : RowReady (defiltering 4#3 1 0 1 [] [1, 1, 2, 3, 4]) := by decide
theorem wit_UpAddsAbove : RowReady (defiltering 4#3 1 1 2 [1, 2, 3, 4] [2, 1, 2, 3, 4]) := by decide
theorem wit_AverageAddsTheHalfSum : RowReady (defiltering 4#3 1 1 2 [1, 2, 3, 4] [3, 1, 2, 3, 4]) := by decide
theorem wit_PaethAddsThePredictor : RowReady (defiltering 4#3 1 1 2 [1, 2, 3, 4] [4, 1, 2, 3, 4]) := by decide
theorem wit_UnknownCopiesAndFlags : RowReady (defiltering 4#3 1 1 2 [1, 2, 3, 4] [9, 1, 2, 3, 4]) := by decide

/-- A tie of left with upperLeft; a tie of above with upperLeft, left farther; upperLeft strictly closest. -/
theorem wit_PaethPicksTheClosest :
    (((3 : Int) + 0 - 1 - 3).natAbs ≤ ((3 : Int) + 0 - 1 - 0).natAbs ∧
        ((3 : Int) + 0 - 1 - 3).natAbs ≤ ((3 : Int) + 0 - 1 - 1).natAbs) ∧
      (((0 : Int) + 3 - 1 - 3).natAbs < ((0 : Int) + 3 - 1 - 0).natAbs ∧
        ((0 : Int) + 3 - 1 - 3).natAbs ≤ ((0 : Int) + 3 - 1 - 1).natAbs) ∧
      (((10 : Int) + 20 - 15 - 15).natAbs < ((10 : Int) + 20 - 15 - 10).natAbs ∧
        ((10 : Int) + 20 - 15 - 15).natAbs < ((10 : Int) + 20 - 15 - 20).natAbs) := by decide

theorem wit_EdgeEquivalences : (defiltering 3#3 1 0 2 [] [2, 1, 2, 3]).y = 0#32 := by decide

/-- The row after row 0 differs. -/
theorem wit_RowsAreCausal :
    Instr.up.format = .row ∧ RowReady (defiltering 3#3 1 0 2 [] [2, 1, 2, 3, 0, 4, 5, 6]) ∧
      Memory.dense (Memory.ofBytes 0 [2, 1, 2, 3, 4, 9, 9, 9]) (2 * (3 + 1)) ∧
      (∀ a, a < (0 + 1) * (3 + 1) → Memory.read (Memory.ofBytes 0 [2, 1, 2, 3, 4, 9, 9, 9]) a =
        Memory.read (defiltering 3#3 1 0 2 [] [2, 1, 2, 3, 0, 4, 5, 6]).fs a) ∧
      answers (exec .up (defiltering 3#3 1 0 2 [] [2, 1, 2, 3, 0, 4, 5, 6])) = true := by decide

/-- Two rows of one pixel, 05 06 07 and 09 08 07, filtered with SUB and UP. -/
theorem wit_ReconstructionInvertsFiltering :
    let s := defiltering 3#3 1 0 2 [] [1, 5, 6, 7, 2, 4, 2, 0]
    let orig := Memory.ofBytes 0 [5, 6, 7, 9, 8, 7]
    let ftype : Nat → Byte := fun y => if y = 0 then 1#8 else 2#8
    s.env.host = [] ∧ RowReady s ∧ s.y = 0#32 ∧ (∀ y, (ftype y).toNat ≤ 4) ∧
      Memory.dense orig (s.hdr.height.toNat * s.geo.stride) ∧
      (∀ y, y < s.hdr.height.toNat → Memory.read s.fs (y * (s.geo.stride + 1)) = some (ftype y)) ∧
      (∀ y x, y < s.hdr.height.toNat → x < s.geo.stride →
        rawAt { s with y := BitVec.ofNat 32 y } x =
          filterByte (predictorOf (ftype y)) { s with y := BitVec.ofNat 32 y } orig x) := by
  refine ⟨by decide, by decide, by decide, ?_, by decide, ?_, ?_⟩
  · intro y
    simp only
    split <;> decide
  · intro y hy
    have hy' : y < 2 := hy
    rcases (by omega : y = 0 ∨ y = 1) with rfl | rfl <;> decide
  · intro y x hy hx
    have hy' : y < 2 := hy
    have hx' : x < 3 := hx
    rcases (by omega : y = 0 ∨ y = 1) with rfl | rfl <;>
      rcases (by omega : x = 0 ∨ x = 1 ∨ x = 2) with rfl | rfl | rfl <;> decide

/-! ### The whole machine -/

/-- After S_START. -/
theorem wit_inv_sig : State.Inv (reading .sig 0 sigBytes) :=
  ⟨by decide, Or.inl rfl, by decide, by decide, by decide, rfl⟩

/-- In the chunk loop, with a header. -/
theorem wit_inv_chunks : State.Inv (withHeader .chunks 33 (sigBytes ++ ihdrBytes ++ idatBytes) 8#8 2#8) :=
  ⟨by decide, Or.inl rfl, by decide, by decide, by decide,
    show ParseOk (withHeader .chunks 33 (sigBytes ++ ihdrBytes ++ idatBytes) 8#8 2#8) by decide⟩

/-- Before S_INFLATE. -/
theorem wit_inv_inflate : State.Inv (withHeader .inflate 33 (sigBytes ++ ihdrBytes) 8#8 2#8) :=
  ⟨by decide, Or.inl rfl, by decide, by decide, by decide,
    show ParseOk (withHeader .inflate 33 (sigBytes ++ ihdrBytes) 8#8 2#8) ∧ _ from ⟨by decide, by decide⟩⟩

/-- Before the second of two rows. -/
theorem wit_inv_defilter : State.Inv (defiltering 3#3 1 1 2 [1, 2, 3] [2, 4, 5, 6]) := by
  refine ⟨by decide, Or.inr (by decide), by decide, by decide, by decide, ?_⟩
  show ImageOk _ ∧ _ ∧ _ ∧ _ ∧ _
  exact ⟨by decide, by decide, by decide, by decide, by decide⟩

/-- Done: one row of one pixel. -/
def doneState : State := { defiltering 3#3 1 0 1 [1, 2, 3] [] with phase := .done, y := 1#32 }

theorem wit_inv_done : State.Inv doneState := by
  refine ⟨by decide, Or.inr (by decide), by decide, by decide, by decide, ?_⟩
  show ImageOk _ ∧ _ ∧ _
  exact ⟨by decide, by decide, by decide⟩

/-- A mismatched signature. -/
def faultState : State := raise .badSignature 0 (reading .sig 8 sigBytes)

theorem wit_inv_fault : State.Inv faultState := by
  refine ⟨by decide, Or.inl rfl, by decide, by decide, by decide, ?_⟩
  show (∃ e : DecodeError, _) ∧ _
  exact ⟨⟨.badSignature, rfl, rfl⟩, by decide⟩

theorem wit_InstructionsKeepTheInvariant :
    answers (exec (.sig 0#64) (reading .sig 0 sigBytes)) = true ∧
      answers (exec (.idat 2#32) (withHeader .chunks 33 (sigBytes ++ ihdrBytes ++ idatBytes) 8#8 2#8)) = true ∧
      answers (exec .sInflate (withHeader .inflate 33 (sigBytes ++ ihdrBytes) 16#8 2#8)) = true ∧
      answers (exec .up (defiltering 3#3 1 1 2 [1, 2, 3] [2, 4, 5, 6])) = true ∧
      answers (exec .sStart doneState) = true := by decide

theorem wit_StepKeepsTheInvariant :
    answers (step (reading .sig 0 sigBytes)) = true ∧ answers (step (defiltering 3#3 1 1 2 [1, 2, 3] [2, 4, 5, 6])) = true ∧
      answers (step doneState) = true ∧ answers (step faultState) = true := by decide

theorem wit_EnabledInstructionsComplete :
    enabledIn (.sig 0#64) (reading .sig 0 sigBytes).phase ∧
      enabledIn (.other 2#32 0#32) (withHeader .chunks 33 (sigBytes ++ ihdrBytes ++ idatBytes) 8#8 2#8).phase ∧
      enabledIn .sInflate (withHeader .inflate 33 (sigBytes ++ ihdrBytes) 8#8 2#8).phase ∧
      enabledIn (.unknown 9#8) (defiltering 3#3 1 1 2 [1, 2, 3] [2, 4, 5, 6]).phase ∧ Instr.sInflate ≠ .sStart :=
  ⟨rfl, rfl, rfl, rfl, by decide⟩

theorem wit_StepAlwaysAnswers : HostKeepsDuties (reading .sig 0 sigBytes) ∧ HostKeepsDuties (hosted [.write 0 1#32] doneState) := by
  refine ⟨⟨fun _ h => ?_, fun _ h => ?_⟩, ⟨fun _ _ => rfl, fun _ _ _ _ _ => rfl⟩⟩ <;> cases h

theorem wit_EveryDecodeEnds :
    State.Inv (reading .sig 0 sigBytes) ∧ (reading .sig 0 sigBytes).phase = .sig ∧ (reading .sig 0 sigBytes).env.host = [] :=
  ⟨wit_inv_sig, rfl, rfl⟩

theorem wit_CursorOnlyMovesForward :
    State.Inv (reading .sig 0 sigBytes) ∧ BlockMoves (reading .sig 0 sigBytes) ∧
      answers (step (reading .sig 0 sigBytes)) = true ∧ (reading .sig 0 sigBytes).phase.busy = true :=
  ⟨wit_inv_sig, by decide, by decide, rfl⟩

/-- While BUSY; a step while BUSY that records an error; a step in DONE. -/
theorem wit_RegistersFitTheirWidths :
    (State.Inv (withHeader .chunks 33 (sigBytes ++ ihdrBytes ++ idatBytes) 8#8 2#8) ∧
        (withHeader .chunks 33 (sigBytes ++ ihdrBytes ++ idatBytes) 8#8 2#8).phase.busy = true ∧
        (withHeader .chunks 33 (sigBytes ++ ihdrBytes ++ idatBytes) 8#8 2#8).inLen ≤ Config.nMax) ∧
      (State.Inv (withHeader .inflate 33 (sigBytes ++ ihdrBytes) 16#8 2#8) ∧
        (withHeader .inflate 33 (sigBytes ++ ihdrBytes) 16#8 2#8).phase.busy = true ∧
        (withHeader .inflate 33 (sigBytes ++ ihdrBytes) 16#8 2#8).inLen ≤ Config.nMax ∧
        after brief (step (withHeader .inflate 33 (sigBytes ++ ihdrBytes) 16#8 2#8)) = some (.fault, 2, 3, 33, 33)) ∧
      (State.Inv doneState ∧ doneState.phase.busy = false ∧ answers (step doneState) = true) := by
  refine ⟨⟨wit_inv_chunks, by decide⟩, ⟨?_, by decide⟩, wit_inv_done, by decide⟩
  exact ⟨by decide, Or.inl rfl, by decide, by decide, by decide,
    show ParseOk (withHeader .inflate 33 (sigBytes ++ ihdrBytes) 16#8 2#8) ∧ _ from ⟨by decide, by decide⟩⟩

theorem wit_OutputLength : State.Inv doneState ∧ doneState.phase = .done := ⟨wit_inv_done, rfl⟩

theorem wit_MethodBytesAreNeverRead :
    answers (exec (.ihdr 13#32) (reading .chunks 0 ihdrBytes)) = true ∧
      answers (exec .sInflate (withHeader .inflate 33 (sigBytes ++ ihdrBytes) 16#8 2#8)) = true := by decide

end Sys2Proof.Tests
end

/-! PROOF. The step by its layers: what the host's move and the block's own action can answer, then the two statements of
00_scope.md. -/

namespace Sys2Proof.Machine

/-! ## The step, through the action it takes -/

/-- What the machine answers once it has chosen an action; `step_eq_outcome` ties it to `step`. -/
def Action.outcome : Action → StepOutcome
  | .run i t => exec i t
  | .become t => .next t
  | .fault f => .fault f
  | .refuse r => .refused r

@[simp] theorem Action.outcome_run (i : Instr) (t : State) : (Action.run i t).outcome = exec i t := rfl
@[simp] theorem Action.outcome_become (t : State) : (Action.become t).outcome = .next t := rfl
@[simp] theorem Action.outcome_fault (f : Fault) : (Action.fault f).outcome = .fault f := rfl
@[simp] theorem Action.outcome_refuse (r : Refusal) : (Action.refuse r).outcome = .refused r := rfl

theorem step_eq_outcome (s : State) : step s = (nextAction s).outcome := by
  unfold step
  cases nextAction s <;> rfl

theorem step_of_blockMoves {s : State} (h : BlockMoves s) : step s = (blockAction (popMove s)).outcome := by
  rw [step_eq_outcome, nextAction_wait h]

theorem step_of_hostMove {s : State} {m : HostMove} (h : s.env.host.head? = some m) :
    step s = (hostAction m (popMove s)).outcome := by
  rw [step_eq_outcome, nextAction_move h]

/-- Either the block takes its own step or the host makes a move other than waiting. -/
theorem blockMoves_or_hostMove (s : State) : BlockMoves s ∨ ∃ m, m ≠ .wait ∧ s.env.host.head? = some m := by
  by_cases h : BlockMoves s
  · exact Or.inl h
  · obtain ⟨hnone, hwait⟩ := not_or.1 h
    obtain ⟨m, hm⟩ := Option.ne_none_iff_exists'.1 hnone
    exact Or.inr ⟨m, fun hw => hwait (hw ▸ hm), hm⟩

/-! ## popMove -/

@[simp] theorem popMove_phase (s : State) : (popMove s).phase = s.phase := rfl
@[simp] theorem popMove_cur (s : State) : (popMove s).cur = s.cur := rfl
@[simp] theorem popMove_y (s : State) : (popMove s).y = s.y := rfl
@[simp] theorem popMove_hdr (s : State) : (popMove s).hdr = s.hdr := rfl
@[simp] theorem popMove_geo (s : State) : (popMove s).geo = s.geo := rfl
@[simp] theorem popMove_cpLen (s : State) : (popMove s).cpLen = s.cpLen := rfl
@[simp] theorem popMove_flags (s : State) : (popMove s).flags = s.flags := rfl
@[simp] theorem popMove_err (s : State) : (popMove s).err = s.err := rfl
@[simp] theorem popMove_cp (s : State) : (popMove s).cp = s.cp := rfl
@[simp] theorem popMove_fs (s : State) : (popMove s).fs = s.fs := rfl
@[simp] theorem popMove_rp (s : State) : (popMove s).rp = s.rp := rfl
@[simp] theorem popMove_input (s : State) : (popMove s).env.input = s.env.input := rfl
@[simp] theorem popMove_inLen (s : State) : (popMove s).inLen = s.inLen := rfl
@[simp] theorem popMove_rowBase (s : State) : rowBase (popMove s) = rowBase s := rfl

/-! ## The block's own action -/

theorem available_of_le {s : State} (h : s.cur + 8 ≤ s.inLen) : available s = 8 := by
  rw [available]
  omega

theorem blockAction_sig {s : State} {i : Instr} {bytes rest : List Byte} (hp : s.phase = .sig)
    (hle : s.cur + 8 ≤ s.inLen) (hb : Memory.readBytes s.env.input s.cur 8 = some bytes)
    (hd : decode .sig bytes = .ok (i, rest)) : blockAction s = .run i s := by
  simp only [blockAction, hp, available_of_le hle, hb, hd]

theorem blockAction_chunk {s : State} {i : Instr} {bytes rest : List Byte} (hp : s.phase = .chunks)
    (hle : s.cur + 8 ≤ s.inLen) (hb : Memory.readBytes s.env.input s.cur 8 = some bytes)
    (hd : decode .chunk bytes = .ok (i, rest)) : blockAction s = .run i s := by
  simp only [blockAction, hp, available_of_le hle, hb, hd]

theorem blockAction_row {s : State} {i : Instr} {f : Byte} {rest : List Byte} (hp : s.phase = .defilter)
    (hf : Memory.read s.fs (rowBase s) = some f) (hd : decode .row [f] = .ok (i, rest)) :
    blockAction s = .run i s := by
  simp only [blockAction, hp, hf, hd]

theorem blockAction_inflate {s : State} (hp : s.phase = .inflate) : blockAction s = .run .sInflate s := by
  simp only [blockAction, hp]

/-- In IDLE, DONE and FAULT the block rests (R133, R137). -/
theorem blockAction_rest {s : State} (h : s.phase.busy = false) : blockAction s = .become s := by
  cases hp : s.phase <;> simp only [hp, Phase.busy, reduceCtorEq] at h <;> simp only [blockAction, hp]

/-- While BUSY the block runs an instruction, or a stream too short for a record ends the phase, or the model stops. -/
theorem blockAction_busy {s t : State} (hb : s.phase.busy = true) (h : (blockAction s).outcome = .next t) :
    (∃ i, exec i s = .next t) ∨ (s.phase = .sig ∧ t = shortSignature s) ∨ (s.phase = .chunks ∧ t = shortChunk s) := by
  unfold blockAction at h
  split at h
  case h_1 hp | h_2 hp | h_3 hp => simp only [hp, Phase.busy, reduceCtorEq] at hb
  case h_4 hp =>
    split at h
    · cases h
    · split at h
      · exact Or.inl ⟨_, h⟩
      · cases h; exact Or.inr (Or.inl ⟨hp, rfl⟩)
  case h_5 hp =>
    split at h
    · cases h
    · split at h
      · exact Or.inl ⟨_, h⟩
      · cases h; exact Or.inr (Or.inr ⟨hp, rfl⟩)
  case h_6 hp => exact Or.inl ⟨.sInflate, h⟩
  case h_7 hp =>
    split at h
    · cases h
    · split at h
      · exact Or.inl ⟨_, h⟩
      · cases h

/-! ## The host's move -/

theorem ctrlAction_start {value : Word32} (h0 : value.getLsbD 0 = true) (h1 : value.getLsbD 1 = false) (s : State) :
    ctrlAction value s = .run .sStart s := by
  simp only [ctrlAction, h0, h1, Bool.false_eq_true, if_false, if_true]

/-- Everything a write of CTRL can do (R31): RESET, else START, else nothing. -/
theorem ctrlAction_next {value : Word32} {s t : State} (h : (ctrlAction value s).outcome = .next t) :
    (value.getLsbD 1 = true ∧ t = resetBlock s) ∨
      (value.getLsbD 1 = false ∧ value.getLsbD 0 = true ∧ exec .sStart s = .next t) ∨
      (value.getLsbD 1 = false ∧ value.getLsbD 0 = false ∧ t = s) := by
  unfold ctrlAction at h
  split at h
  · rename_i h1; cases h; exact Or.inl ⟨h1, rfl⟩
  · rename_i h1
    split at h
    · rename_i h0; exact Or.inr (Or.inl ⟨by simpa using h1, h0, h⟩)
    · rename_i h0; cases h; exact Or.inr (Or.inr ⟨by simpa using h1, by simpa using h0, rfl⟩)

/-- Everything a move of the host but waiting can do (log entry 2). -/
theorem hostAction_next {m : HostMove} {s t : State} (hm : m ≠ .wait) (h : (hostAction m s).outcome = .next t) :
    (t = s ∧ ∃ reg value, m = .write reg value) ∨
      (t = resetBlock s ∧ (m = .hardReset ∨ ∃ value, m = .write 0 value ∧ value.getLsbD 1 = true)) ∨
      (exec .sStart s = .next t ∧
        ∃ value, m = .write 0 value ∧ value.getLsbD 1 = false ∧ value.getLsbD 0 = true) ∨
      (s.phase.busy = false ∧ ∃ bytes, m = .bind bytes ∧
        t = { s with env := { s.env with input := Memory.ofBytes 0 bytes, bound := true } }) := by
  cases m with
  | wait => exact absurd rfl hm
  | write reg value =>
    simp only [hostAction] at h
    split at h
    · rename_i hreg
      subst hreg
      rcases ctrlAction_next h with ⟨h1, ht⟩ | ⟨h1, h0, ht⟩ | ⟨-, -, ht⟩
      · exact Or.inr (Or.inl ⟨ht, Or.inr ⟨value, rfl, h1⟩⟩)
      · exact Or.inr (Or.inr (Or.inl ⟨ht, value, rfl, h1, h0⟩))
      · exact Or.inl ⟨ht, 0, value, rfl⟩
    · cases h; exact Or.inl ⟨rfl, reg, value, rfl⟩
  | hardReset => cases h; exact Or.inr (Or.inl ⟨rfl, Or.inl rfl⟩)
  | bind bytes =>
    simp only [hostAction] at h
    split at h
    · cases h
    · rename_i hb
      cases h
      exact Or.inr (Or.inr (Or.inr ⟨by simpa using hb, bytes, rfl, rfl⟩))

/-! ## O6 -/

/-- Settles O6: in each phase the block's action is to run the decoded instruction, and `step` runs it. -/
theorem stepRunsTheDecodedInstruction : Obligations.StepRunsTheDecodedInstruction := by
  unfold Obligations.StepRunsTheDecodedInstruction
  intro s i bytes rest
  refine ⟨fun hm hp hle hb hd => ?_, fun hm hp hle hb hd => ?_, fun f hm hp hf hd => ?_, fun hm hp => ?_,
    fun value hv h0 h1 => ?_, rfl⟩
  · rw [step_of_blockMoves hm, blockAction_sig (s := popMove s) hp hle hb hd, Action.outcome_run]
  · rw [step_of_blockMoves hm, blockAction_chunk (s := popMove s) hp hle hb hd, Action.outcome_run]
  · rw [step_of_blockMoves hm, blockAction_row (s := popMove s) hp hf hd, Action.outcome_run]
  · rw [step_of_blockMoves hm, blockAction_inflate (s := popMove s) hp, Action.outcome_run]
  · rw [step_of_hostMove hv, hostAction, if_pos rfl, ctrlAction_start h0 h1, Action.outcome_run]

/-! ## The geometry registers fit (R21 to R23) -/

theorem bpp_cases_of_geometryOk {s : State} (h : GeometryOk s) :
    s.geo.bpp = 0#3 ∨ s.geo.bpp = 3#3 ∨ s.geo.bpp = 4#3 := by
  rcases h with h | ⟨hb, -, -⟩
  · exact Or.inl (by rw [h]; rfl)
  · exact Or.inr hb

/-- STRIDE is at most four bytes for each pixel of the widest row. -/
theorem stride_le_of_geometryOk {s : State} (h : GeometryOk s) : s.geo.stride ≤ (2 ^ 32 - 1) * 4 := by
  rcases h with h | ⟨hb, hs, -⟩
  · rw [h]; exact Nat.zero_le _
  · have hbpp : s.geo.bpp.toNat ≤ 4 := by rcases hb with hb | hb <;> rw [hb] <;> decide
    rw [hs]
    exact Nat.mul_le_mul (Nat.le_sub_one_of_lt s.hdr.width.isLt) hbpp

theorem expLen_le_of_geometryOk {s : State} (h : GeometryOk s) :
    s.geo.expLen ≤ (2 ^ 32 - 1) * ((2 ^ 32 - 1) * 4 + 1) := by
  have hstride := stride_le_of_geometryOk h
  rcases h with h | ⟨-, -, he⟩
  · rw [h]; exact Nat.zero_le _
  · rw [he]
    exact Nat.mul_le_mul (Nat.le_sub_one_of_lt s.hdr.height.isLt) (Nat.succ_le_succ hstride)

/-! ## CUR, CP_LEN and ERR_POS stay within the stream (R15, R20, R33)

The invariant bounds the cursor by the stream's length only while BUSY, so it says too little of the state in which a decode
has just ended. `RegsWithin n` bounds the three registers by `n`; the invariant gives it while BUSY, and every instruction
keeps it, the errors it takes included. -/

/-- The stream has `n` bytes, the payload taken lies before the cursor, and cursor and error position lie in the stream. -/
structure RegsWithin (n : Nat) (s : State) : Prop where
  inLen_eq : s.inLen = n
  cpLen_le : s.cpLen ≤ s.cur
  cur_le : s.cur ≤ n
  pos_le : s.err.pos ≤ n

/-- While BUSY the invariant bounds the registers by the length of the stream. -/
theorem regsWithin_of_inv {s : State} (h : State.Inv s) (hb : s.phase.busy = true) : RegsWithin s.inLen s := by
  obtain ⟨-, -, -, -, -, hphase⟩ := h
  have parse : ParseOk s → RegsWithin s.inLen s := by
    rintro ⟨-, -, -, -, hcur, hcp, -, -, -, -, herr, -⟩
    exact ⟨rfl, hcp, hcur, by rw [herr]; exact Nat.zero_le _⟩
  unfold PhaseOk at hphase
  split at hphase
  case h_1 hp | h_6 hp | h_7 hp => simp only [hp, Phase.busy, reduceCtorEq] at hb
  case h_2 => rw [hphase]; exact ⟨rfl, Nat.le_refl 0, Nat.zero_le _, Nat.zero_le _⟩
  case h_3 => exact parse hphase
  case h_4 => exact parse hphase.1
  case h_5 =>
    obtain ⟨⟨-, -, -, -, -, -, -, -, herr, hcp⟩, hcur, -⟩ := hphase
    exact ⟨rfl, hcp, hcur, by rw [herr]; exact Nat.zero_le _⟩

section
variable {n : Nat} {s t : State}

/-- What leaves the four quantities alone keeps the bounds. -/
theorem RegsWithin.congr (h : RegsWithin n s) (hlen : t.inLen = s.inLen) (hcur : t.cur = s.cur)
    (hcp : t.cpLen = s.cpLen) (herr : t.err = s.err) : RegsWithin n t :=
  ⟨hlen.trans h.inLen_eq, by rw [hcp, hcur]; exact h.cpLen_le, by rw [hcur]; exact h.cur_le,
    by rw [herr]; exact h.pos_le⟩

theorem RegsWithin.advance (h : RegsWithin n s) {k : Nat} (hk : s.cur + k ≤ s.inLen) :
    RegsWithin n { s with cur := s.cur + k } :=
  ⟨h.inLen_eq, Nat.le_add_right_of_le h.cpLen_le, h.inLen_eq ▸ hk, h.pos_le⟩

theorem RegsWithin.drain (h : RegsWithin n s) : RegsWithin n (drainInput s) :=
  ⟨h.inLen_eq, h.cpLen_le.trans (h.cur_le.trans h.inLen_eq.ge), h.inLen_eq.le, h.pos_le⟩

/-- Taking an error at a position in the stream. -/
theorem RegsWithin.taken (h : RegsWithin n s) (e : DecodeError) {pos : Nat} (hpos : pos ≤ n) :
    RegsWithin n (raise e pos s) :=
  ⟨h.inLen_eq, h.cpLen_le, h.cur_le, hpos⟩

/-- Appending a payload of the stream that the cursor has just passed. -/
theorem RegsWithin.append (h : RegsWithin n s) {k : Nat} (hk : s.cur + k ≤ s.inLen) (p : List Byte) :
    RegsWithin n (appendPayload k p { s with cur := s.cur + k }) :=
  ⟨h.inLen_eq, Nat.add_le_add_right h.cpLen_le k, h.inLen_eq ▸ hk, h.pos_le⟩

theorem RegsWithin.cleared (h : RegsWithin n s) : RegsWithin n (resetBlock s) :=
  ⟨h.inLen_eq, Nat.le_refl 0, Nat.zero_le n, Nat.zero_le n⟩

theorem RegsWithin.after_popMove (h : RegsWithin n s) : RegsWithin n (popMove s) :=
  h.congr rfl rfl rfl rfl

theorem RegsWithin.after_shortSignature (h : RegsWithin n s) : RegsWithin n (shortSignature s) :=
  h.drain.taken _ (Nat.zero_le n)

theorem RegsWithin.after_shortChunk (h : RegsWithin n s) : RegsWithin n (shortChunk s) :=
  h.drain.congr rfl rfl rfl rfl

/-- A chunk operation that keeps the bounds, whether it completes or raises an error. -/
structure OpKeepsRegs (n : Nat) (op : State → OpResult) : Prop where
  raised : ∀ {s e t}, RegsWithin n s → op s = .raised e t → RegsWithin n t
  done : ∀ {s t}, RegsWithin n s → op s = .done t → RegsWithin n t

theorem opIhdr_keepsRegs (n : Nat) (len : Word32) : OpKeepsRegs n (opIhdr len) where
  raised h hop := by
    rcases opIhdr_raised hop with rfl | ⟨-, rfl⟩ | ⟨hle, rfl⟩
    · exact h
    · exact h.drain
    · exact h.advance hle
  done h hop := by
    obtain ⟨-, -, hle, p, -, -, -, rfl⟩ := opIhdr_done hop
    exact (h.advance hle).congr rfl rfl rfl rfl

theorem opIdat_keepsRegs (n : Nat) (len : Word32) : OpKeepsRegs n (opIdat len) where
  raised h hop := by
    rcases opIdat_raised hop with rfl | ⟨-, rfl⟩
    · exact h
    · exact h.drain
  done h hop := by
    obtain ⟨-, hle, p, -, -, rfl⟩ := opIdat_done hop
    exact h.append hle p

theorem opIend_keepsRegs (n : Nat) (len : Word32) : OpKeepsRegs n (opIend len) where
  raised h hop := opIend_raised hop ▸ h
  done h hop := (opIend_done hop).2 ▸ h.congr rfl rfl rfl rfl

theorem opPlte_keepsRegs (n : Nat) (len : Word32) : OpKeepsRegs n (opPlte len) where
  raised h hop := by cases hop; exact h
  done _ hop := by cases hop

theorem opOther_keepsRegs (n : Nat) (len : Word32) : OpKeepsRegs n (opOther len) where
  raised h hop := (opOther_raised hop).2 ▸ h.drain
  done h hop := by
    obtain ⟨hle, rfl⟩ := opOther_done hop
    exact h.advance hle

/-- S_CHUNK keeps the bounds where its operation does: an error is recorded at the chunk's offset, which the cursor held. -/
theorem RegsWithin.after_chunkStep {op : State → OpResult} (h : RegsWithin n s) (hop : OpKeepsRegs n op)
    (hs : chunkStep op s = .next t) : RegsWithin n t := by
  obtain ⟨-, ⟨-, rfl⟩ | ⟨hle, ⟨e, u, hu, rfl⟩ | ⟨u, hu, hend⟩⟩⟩ := chunkStep_next hs
  · exact h.after_shortChunk
  · exact (hop.raised (h.advance hle) hu).taken e h.cur_le
  · have hdone := hop.done (h.advance hle) hu
    rcases hend with ⟨-, rfl⟩ | ⟨hle', rfl⟩
    · exact hdone.drain.taken _ h.cur_le
    · exact hdone.advance hle'

theorem RegsWithin.after_execSig {magic : Word64} (h : RegsWithin n s) (hs : execSig magic s = .next t) :
    RegsWithin n t := by
  obtain ⟨-, ⟨-, rfl⟩ | ⟨hle, ⟨-, rfl⟩ | ⟨-, rfl⟩⟩⟩ := execSig_next hs
  · exact h.after_shortSignature
  · exact (h.advance hle).congr rfl rfl rfl rfl
  · exact (h.advance hle).taken _ (Nat.zero_le n)

theorem RegsWithin.after_rowStep {predict : Predictor} (h : RegsWithin n s) (hs : rowStep predict s = .next t) :
    RegsWithin n t := by
  obtain ⟨-, rp, -, rfl⟩ := rowStep_next hs
  exact h.congr (by simp [State.inLen]) (by simp) (by simp) (by simp)

theorem RegsWithin.after_execSStart (h : RegsWithin n s) (hs : execSStart s = .next t) : RegsWithin n t := by
  rcases execSStart_next hs with ⟨-, rfl⟩ | ⟨-, -, rfl⟩
  · exact h
  · exact h.cleared.congr rfl rfl rfl rfl

theorem RegsWithin.after_execSInflate (h : RegsWithin n s) (hs : execSInflate s = .next t) : RegsWithin n t := by
  have hcall : ∀ bpp, RegsWithin n (setGeometry bpp s) ∧ RegsWithin n (afterInflate (setGeometry bpp s)) :=
    fun bpp => ⟨h.congr rfl rfl rfl rfl, h.congr rfl rfl rfl rfl⟩
  obtain ⟨-, ⟨e, rfl⟩ | ⟨bpp, -, -, -, rfl | ⟨e, rfl⟩ | ⟨r, -, rfl⟩⟩⟩ := execSInflate_next hs
  · exact h.taken e h.cur_le
  · exact (hcall bpp).1.taken _ h.cur_le
  · exact (hcall bpp).2.taken e h.cur_le
  · exact (hcall bpp).2.congr rfl rfl rfl rfl

/-- Every instruction keeps the bounds. -/
theorem RegsWithin.after_exec {i : Instr} (h : RegsWithin n s) (hs : exec i s = .next t) : RegsWithin n t := by
  cases i with
  | sig magic => exact h.after_execSig hs
  | ihdr len => exact h.after_chunkStep (opIhdr_keepsRegs n len) hs
  | idat len => exact h.after_chunkStep (opIdat_keepsRegs n len) hs
  | iend len => exact h.after_chunkStep (opIend_keepsRegs n len) hs
  | plte len => exact h.after_chunkStep (opPlte_keepsRegs n len) hs
  | other len tag => exact h.after_chunkStep (opOther_keepsRegs n len) hs
  | none => exact h.after_rowStep (predict := predictNone) hs
  | sub => exact h.after_rowStep (predict := predictSub) hs
  | up => exact h.after_rowStep (predict := predictUp) hs
  | average => exact h.after_rowStep (predict := predictAverage) hs
  | paeth => exact h.after_rowStep (predict := predictPaeth) hs
  | unknown ftype =>
    have hmark : RegsWithin n (markUnknownFilter s) := h.congr rfl rfl rfl rfl
    exact hmark.after_rowStep (predict := predictUnknown) hs
  | sStart => exact h.after_execSStart hs
  | sInflate => exact h.after_execSInflate hs

/-- Every step taken while BUSY keeps the bounds, the host's moves included. -/
theorem RegsWithin.after_step (h : RegsWithin n s) (hb : s.phase.busy = true) (hs : step s = .next t) : RegsWithin n t := by
  rcases blockMoves_or_hostMove s with hm | ⟨m, hm, hhead⟩
  · rw [step_of_blockMoves hm] at hs
    rcases blockAction_busy (s := popMove s) hb hs with ⟨i, hi⟩ | ⟨-, rfl⟩ | ⟨-, rfl⟩
    · exact h.after_popMove.after_exec hi
    · exact h.after_popMove.after_shortSignature
    · exact h.after_popMove.after_shortChunk
  · rw [step_of_hostMove hhead] at hs
    rcases hostAction_next hm hs with ⟨rfl, -⟩ | ⟨rfl, -⟩ | ⟨hi, -⟩ | ⟨hidle, -⟩
    · exact h.after_popMove
    · exact h.after_popMove.cleared
    · exact h.after_popMove.after_exec hi
    · rw [popMove_phase, hb] at hidle
      cases hidle

theorem RegsWithin.lt_two_pow_64 (h : RegsWithin n s) (hn : n ≤ Config.nMax) :
    s.cur < 2 ^ 64 ∧ s.cpLen < 2 ^ 64 ∧ s.err.pos < 2 ^ 64 := by
  have lt_of_le : ∀ {x}, x ≤ n → x < 2 ^ 64 := fun hx => Nat.lt_of_le_pred (by decide) (hx.trans hn)
  exact ⟨lt_of_le h.cur_le, lt_of_le (h.cpLen_le.trans h.cur_le), lt_of_le h.pos_le⟩

/-! ## A step in IDLE, DONE or FAULT -/

/-- None of the three registers is larger in `t` than in `s`. -/
def RegsNotLarger (s t : State) : Prop := t.cur ≤ s.cur ∧ t.cpLen ≤ s.cpLen ∧ t.err.pos ≤ s.err.pos

theorem regsNotLarger_of_eq (hcur : t.cur = s.cur) (hcp : t.cpLen = s.cpLen) (herr : t.err = s.err) :
    RegsNotLarger s t :=
  ⟨hcur.le, hcp.le, by rw [herr]⟩

theorem regsNotLarger_of_zero (hcur : t.cur = 0) (hcp : t.cpLen = 0) (herr : t.err = ErrorRegs.reset) :
    RegsNotLarger s t :=
  ⟨hcur ▸ Nat.zero_le _, hcp ▸ Nat.zero_le _, by rw [herr]; exact Nat.zero_le _⟩

/-- Outside BUSY a step leaves the three registers as they are or, by a reset or START, clears them. -/
theorem step_regsNotLarger (hb : s.phase.busy = false) (hs : step s = .next t) : RegsNotLarger s t := by
  rcases blockMoves_or_hostMove s with hm | ⟨m, hm, hhead⟩
  · rw [step_of_blockMoves hm, blockAction_rest (s := popMove s) hb] at hs
    cases hs
    exact regsNotLarger_of_eq rfl rfl rfl
  · rw [step_of_hostMove hhead] at hs
    rcases hostAction_next hm hs with ⟨rfl, -⟩ | ⟨rfl, -⟩ | ⟨hi, -⟩ | ⟨-, bytes, -, rfl⟩
    · exact regsNotLarger_of_eq rfl rfl rfl
    · exact regsNotLarger_of_zero rfl rfl rfl
    · rcases execSStart_next hi with ⟨-, rfl⟩ | ⟨-, -, rfl⟩
      · exact regsNotLarger_of_eq rfl rfl rfl
      · exact regsNotLarger_of_zero rfl rfl rfl
    · exact regsNotLarger_of_eq rfl rfl rfl

end

/-! ## O58 -/

/-- Settles O58: the geometry from its exact products, the three registers from `RegsWithin`, which the invariant gives
while BUSY and every step then keeps. -/
theorem registersFitTheirWidths : Obligations.RegistersFitTheirWidths := by
  unfold Obligations.RegistersFitTheirWidths
  intro s hinv
  have hgeo : GeometryOk s := hinv.2.1
  refine ⟨bpp_cases_of_geometryOk hgeo, (stride_le_of_geometryOk hgeo).trans_lt (by decide),
    (expLen_le_of_geometryOk hgeo).trans_lt (by decide),
    fun hb hn => (regsWithin_of_inv hinv hb).lt_two_pow_64 hn, fun t hs => ⟨fun hb hn => ?_, fun hb => ?_⟩⟩
  · exact ((regsWithin_of_inv hinv hb).after_step hb hs).lt_two_pow_64 hn
  · exact step_regsNotLarger hb hs

end Sys2Proof.Machine

/-! PROOF. The invariant of `State.Inv` is kept by every instruction and every step, and the block's own step only moves the
cursor forward (10_state.md R15, 40_stream_front.md R84). -/

namespace Sys2Proof.Machine

/-! ## What an error leaves (60_exceptions.md R130)

PHASE = FAULT claims less of a state than the phases an error is taken in. `ErrorSafe` is what those phases share of it, so
that each error case is one use of `ErrorSafe.inv_raise`. -/

/-- Where this holds, taking any error leaves a state that meets the invariant. -/
structure ErrorSafe (s : State) : Prop where
  input : InputOk s
  geometry : GeometryOk s
  header : HeaderOk s
  y_eq : s.y = 0#32
  unkFilt_eq : s.flags.unkFilt = false
  cpLen_le : s.cpLen ≤ s.cur

theorem ErrorSafe.inv_raise {s : State} (h : ErrorSafe s) (e : DecodeError) {pos : Nat} (hpos : pos ≤ s.cur) :
    State.Inv (raise e pos s) :=
  ⟨h.input, h.geometry, Memory.released_wf, Memory.released_wf, Memory.released_wf,
    ⟨e, rfl, rfl⟩, hpos, h.header, h.y_eq, h.unkFilt_eq, h.cpLen_le⟩

/-- A header that has been accepted has both dimensions. -/
theorem headerOk_of_valid {s : State} (hv : s.flags.hdrValid = true) (hw : s.hdr.width ≠ 0#32)
    (hh : s.hdr.height ≠ 0#32) : HeaderOk s :=
  (if_pos hv).mpr ⟨hw, hh⟩

theorem dimensions_of_headerOk {s : State} (h : HeaderOk s) (hv : s.flags.hdrValid = true) :
    s.hdr.width ≠ 0#32 ∧ s.hdr.height ≠ 0#32 :=
  (if_pos hv).mp h

section
variable {s t : State} {start : Nat}

/-! ## IDLE: the reset state -/

/-- The invariant holds at reset beside any stream. -/
theorem inv_resetIn {env : Env} (h : Memory.dense env.input env.input.length) : State.Inv (State.resetIn env) :=
  ⟨h, Or.inl rfl, Memory.released_wf, Memory.released_wf, Memory.released_wf, rfl⟩

/-! ## SIG: the state S_START leaves -/

theorem inv_startDecode (h : InputOk s) : State.Inv (startDecode s) :=
  ⟨h, Or.inl rfl, Memory.released_wf, Memory.released_wf, Memory.released_wf, rfl⟩

theorem eq_startDecode_of_inv (h : State.Inv s) (hp : s.phase = .sig) : s = startDecode s := by
  obtain ⟨-, -, -, -, -, hphase⟩ := h
  simpa only [PhaseOk, hp] using hphase

/-- In SIG an error may be taken wherever the cursor stands. -/
theorem errorSafe_of_sig (h : State.Inv s) (hp : s.phase = .sig) (cur : Nat) : ErrorSafe { s with cur := cur } := by
  have hin : InputOk s := h.1
  rw [eq_startDecode_of_inv h hp]
  exact ⟨hin, Or.inl rfl, ⟨rfl, rfl⟩, rfl, rfl, Nat.zero_le _⟩

theorem inv_shortSignature (h : State.Inv s) (hp : s.phase = .sig) : State.Inv (shortSignature s) :=
  (errorSafe_of_sig h hp s.inLen).inv_raise _ (Nat.zero_le _)

/-! ## CHUNKS and the end of parsing -/

/-- The chunk loop runs consistently, with the cursor at or behind `start`, the offset of the chunk in hand. -/
structure Parsing (start : Nat) (s : State) : Prop where
  phase_eq : s.phase = .chunks
  input : InputOk s
  parse : ParseOk s
  start_le : start ≤ s.cur

theorem parsing_of_inv (h : State.Inv s) (hp : s.phase = .chunks) : Parsing s.cur s := by
  obtain ⟨hin, -, -, -, -, hphase⟩ := h
  exact ⟨hp, hin, by simpa only [PhaseOk, hp] using hphase, Nat.le_refl _⟩

/-- A state that satisfies `ParseOk` has every space in its canonical form and no geometry yet. -/
theorem inv_of_parseOk (hin : InputOk s) (h : ParseOk s) (hphase : PhaseOk s) : State.Inv s := by
  obtain ⟨-, -, hcp, -, -, -, hfs, hrp, -, hgeo, -⟩ := h
  exact ⟨hin, Or.inl hgeo, Memory.dense_wf hcp, hfs ▸ Memory.released_wf, hrp ▸ Memory.released_wf, hphase⟩

theorem errorSafe_of_parseOk (hin : InputOk s) (h : ParseOk s) : ErrorSafe s := by
  obtain ⟨-, hhdr, -, -, -, hle, -, -, hy, hgeo, -, hunk⟩ := h
  exact ⟨hin, Or.inl hgeo, hhdr, hy, hunk, hle⟩

theorem Parsing.inv (h : Parsing start s) : State.Inv s :=
  inv_of_parseOk h.input h.parse (by simpa only [PhaseOk, h.phase_eq] using h.parse)

theorem Parsing.errorSafe (h : Parsing start s) : ErrorSafe s := errorSafe_of_parseOk h.input h.parse

/-- The cursor may move on anywhere within the stream. -/
theorem Parsing.moveCursor (h : Parsing start s) {cur : Nat} (hle : s.cur ≤ cur) (hlen : cur ≤ s.inLen) :
    Parsing start { s with cur := cur } := by
  obtain ⟨hsig, hhdr, hcp, h8, -, hcpLen, hrest⟩ := h.parse
  exact ⟨h.phase_eq, h.input, ⟨hsig, hhdr, hcp, h8.trans hle, hlen, hcpLen.trans hle, hrest⟩, h.start_le.trans hle⟩

theorem Parsing.advance (h : Parsing start s) {k : Nat} (hk : s.cur + k ≤ s.inLen) :
    Parsing start { s with cur := s.cur + k } :=
  h.moveCursor (Nat.le_add_right _ _) hk

theorem Parsing.drain (h : Parsing start s) : Parsing start (drainInput s) := by
  obtain ⟨-, -, -, -, hcur, -⟩ := h.parse
  exact h.moveCursor hcur (Nat.le_refl _)

/-- A header with both dimensions may be latched. -/
theorem Parsing.latch (h : Parsing start s) {hdr : Header} (hw : hdr.width ≠ 0#32) (hh : hdr.height ≠ 0#32) :
    Parsing start (latchHeader hdr s) := by
  obtain ⟨hsig, -, hrest⟩ := h.parse
  exact ⟨h.phase_eq, h.input, ⟨hsig, headerOk_of_valid rfl hw hh, hrest⟩, h.start_le⟩

/-- Under an accepted header the payload the cursor has just passed may be appended. -/
theorem Parsing.append (h : Parsing start s) (hv : s.flags.hdrValid = true) {p : List Byte}
    (hk : s.cur + p.length ≤ s.inLen) :
    Parsing start (appendPayload p.length p { s with cur := s.cur + p.length }) := by
  obtain ⟨hsig, hhdr, hcp, h8, -, hcpLen, hrest⟩ := h.parse
  obtain ⟨hw, hh⟩ := dimensions_of_headerOk hhdr hv
  exact ⟨h.phase_eq, h.input,
    ⟨hsig, headerOk_of_valid hv hw hh, Memory.writeBytes_dense p hcp, Nat.le_add_right_of_le h8, hk,
      Nat.add_le_add_right hcpLen _, hrest⟩,
    Nat.le_add_right_of_le h.start_le⟩

theorem Parsing.mark (h : Parsing start s) : Parsing start (markIend s) :=
  ⟨h.phase_eq, h.input, h.parse, h.start_le⟩

/-- The chunk loop ends with the whole stream consumed (R84). -/
theorem Parsing.inv_shortChunk (h : Parsing start s) : State.Inv (shortChunk s) :=
  inv_of_parseOk h.drain.input h.drain.parse ⟨h.drain.parse, rfl⟩

/-- A chunk operation that keeps the loop consistent, whether it completes or raises an error. -/
structure OpKeepsParsing (op : State → OpResult) : Prop where
  raised : ∀ {start s e t}, Parsing start s → op s = .raised e t → Parsing start t
  done : ∀ {start s t}, Parsing start s → op s = .done t → Parsing start t

theorem opIhdr_keepsParsing (len : Word32) : OpKeepsParsing (opIhdr len) where
  raised h hop := by
    rcases opIhdr_raised hop with rfl | ⟨-, rfl⟩ | ⟨hle, rfl⟩
    · exact h
    · exact h.drain
    · exact h.advance hle
  done h hop := by
    obtain ⟨-, -, hle, p, -, hw, hh, rfl⟩ := opIhdr_done hop
    exact (h.advance hle).latch hw hh

theorem opIdat_keepsParsing (len : Word32) : OpKeepsParsing (opIdat len) where
  raised h hop := by
    rcases opIdat_raised hop with rfl | ⟨-, rfl⟩
    · exact h
    · exact h.drain
  done h hop := by
    obtain ⟨hv, hle, p, -, hlen, rfl⟩ := opIdat_done hop
    rw [← hlen] at hle ⊢
    exact h.append hv hle

theorem opIend_keepsParsing (len : Word32) : OpKeepsParsing (opIend len) where
  raised h hop := opIend_raised hop ▸ h
  done h hop := (opIend_done hop).2 ▸ h.mark

theorem opPlte_keepsParsing (len : Word32) : OpKeepsParsing (opPlte len) where
  raised h hop := by cases hop; exact h
  done _ hop := by cases hop

theorem opOther_keepsParsing (len : Word32) : OpKeepsParsing (opOther len) where
  raised h hop := (opOther_raised hop).2 ▸ h.drain
  done h hop := by
    obtain ⟨hle, rfl⟩ := opOther_done hop
    exact h.advance hle

/-! ## INFLATE -/

theorem parseOk_of_inflate (h : State.Inv s) (hp : s.phase = .inflate) : ParseOk s := by
  obtain ⟨-, -, -, -, -, hphase⟩ := h
  simp only [PhaseOk, hp] at hphase
  exact hphase.1

theorem bppOf_cases {mode : Byte} {bpp : BitVec 3} (h : bppOf mode = some bpp) : bpp = 3#3 ∨ bpp = 4#3 := by
  unfold bppOf at h
  split at h
  · cases h; exact Or.inr rfl
  · split at h
    · cases h; exact Or.inl rfl
    · cases h

/-- An error may still be taken once the geometry is derived (R96, R97). -/
theorem ErrorSafe.setGeometry (h : ErrorSafe s) {bpp : BitVec 3} (hb : bpp = 3#3 ∨ bpp = 4#3) :
    ErrorSafe (setGeometry bpp s) :=
  ⟨h.input, Or.inr ⟨hb, rfl, rfl⟩, h.header, h.y_eq, h.unkFilt_eq, h.cpLen_le⟩

theorem ErrorSafe.afterInflate (h : ErrorSafe s) : ErrorSafe (afterInflate s) :=
  ⟨h.input, h.geometry, h.header, h.y_eq, h.unkFilt_eq, h.cpLen_le⟩

/-- S_INFLATE's success (R99): the header is supported and FS holds the rows the geometry asks for. -/
theorem inv_fillScanlines (hin : InputOk s) (h : ParseOk s) {bpp : BitVec 3} {r : List Byte}
    (hv : s.flags.hdrValid = true) (hdepth : s.hdr.bitDepth = 8#8) (hbpp : bppOf s.hdr.colorMode = some bpp)
    (hlen : r.length = (setGeometry bpp s).geo.expLen) :
    State.Inv (fillScanlines r (afterInflate (setGeometry bpp s))) := by
  obtain ⟨hsig, hhdr, -, -, hcur, hcpLen, hfs, hrp, -, -, herr, -⟩ := h
  obtain ⟨hw, hh⟩ := dimensions_of_headerOk hhdr hv
  have hdense : Memory.dense (Memory.writeBytes s.fs 0 r) (setGeometry bpp s).geo.expLen := by
    simpa only [hfs, hlen, Nat.zero_add] using Memory.writeBytes_dense r Memory.dense_nil
  have hrows : 0 < s.hdr.height.toNat := Nat.pos_of_ne_zero fun h0 => hh (BitVec.eq_of_toNat_eq h0)
  have hnone : Memory.dense s.rp (0 * (setGeometry bpp s).geo.stride) := by
    rw [hrp, Nat.zero_mul]; exact Memory.dense_nil
  exact ⟨hin, Or.inr ⟨bppOf_cases hbpp, rfl, rfl⟩, Memory.released_wf, Memory.dense_wf hdense, Memory.dense_wf hnone,
    ⟨hsig, hv, hw, hh, hdepth, hbpp, rfl, rfl, herr, hcpLen⟩, hcur, hdense, hrows, hnone⟩

/-! ## DEFILTER: a row -/

/-- What the invariant says while rows are reconstructed. -/
theorem defilter_of_inv (h : State.Inv s) (hp : s.phase = .defilter) :
    ImageOk s ∧ s.cur ≤ s.inLen ∧ Memory.dense s.fs s.geo.expLen ∧ s.y.toNat < s.hdr.height.toNat ∧
      Memory.dense s.rp (s.y.toNat * s.geo.stride) := by
  obtain ⟨-, -, -, -, -, hphase⟩ := h
  simpa only [PhaseOk, hp] using hphase

/-- While the invariant holds, the row in hand can run. -/
theorem rowReady_of_inv (h : State.Inv s) (hp : s.phase = .defilter) : RowReady s := by
  obtain ⟨⟨-, -, -, -, -, hbpp, -, hexp, -⟩, -, hfs, hy, hrp⟩ := defilter_of_inv h hp
  have hpos : 0 < s.geo.bpp.toNat := by rcases bppOf_cases hbpp with hb | hb <;> rw [hb] <;> decide
  exact ⟨hp, hy, hpos, hexp ▸ hfs, hrp⟩

/-- The row loop completes row Y of RP. -/
theorem rowLoop_dense {predict : Predictor} {rp : Memory} (h : RowReady s)
    (e : rowLoop predict s s.geo.stride 0 s.rp = .ok rp) : Memory.dense rp ((s.y.toNat + 1) * s.geo.stride) := by
  obtain ⟨-, -, -, -, hrp⟩ := id h
  obtain ⟨rp', e', hd, -, -⟩ := rowLoop_spec predict s h s.geo.stride 0 s.rp (Nat.zero_add _) hrp
  cases e.symm.trans e'
  rwa [Nat.succ_mul]

/-- Y does not wrap around before the last row is done. -/
theorem y_succ_toNat (h : s.y.toNat < s.hdr.height.toNat) : (s.y + 1#32).toNat = s.y.toNat + 1 := by
  have := s.hdr.height.isLt
  rw [BitVec.toNat_add, BitVec.toNat_ofNat]
  omega

/-- The end of a row (R114): the next row's state, or after the last row DONE's. -/
theorem inv_finishRow (h : State.Inv s) (hp : s.phase = .defilter) {rp : Memory}
    (hrp : Memory.dense rp ((s.y.toNat + 1) * s.geo.stride)) : State.Inv (finishRow rp s) := by
  obtain ⟨himage, hcur, hfs, hy, -⟩ := defilter_of_inv h hp
  obtain ⟨hin, hgeo, hcpWf, hfsWf, -, -⟩ := h
  have hsucc := y_succ_toNat hy
  rw [← hsucc] at hrp
  by_cases hlast : s.y + 1#32 = s.hdr.height
  · rw [finishRow, if_pos hlast]
    exact ⟨hin, hgeo, hcpWf, Memory.released_wf, Memory.dense_wf hrp, himage, hlast, hlast ▸ hrp⟩
  · rw [finishRow, if_neg hlast]
    have hne : (s.y + 1#32).toNat ≠ s.hdr.height.toNat := fun he => hlast (BitVec.eq_of_toNat_eq he)
    have hnext : (s.y + 1#32).toNat < s.hdr.height.toNat := by omega
    refine ⟨hin, hgeo, hcpWf, hfsWf, Memory.dense_wf hrp, ?_⟩
    simp only [PhaseOk, hp]
    exact ⟨himage, hcur, hfs, hnext, hrp⟩

theorem inv_markUnknownFilter (h : State.Inv s) (hp : s.phase = .defilter) : State.Inv (markUnknownFilter s) := by
  have hrows := defilter_of_inv h hp
  obtain ⟨hin, hgeo, hcpWf, hfsWf, hrpWf, -⟩ := h
  refine ⟨hin, hgeo, hcpWf, hfsWf, hrpWf, ?_⟩
  simp only [PhaseOk, markUnknownFilter_phase, hp]
  exact hrows

/-! ## Every instruction -/

/-- `t` meets the invariant, and a block that was running in `s` has not moved its cursor back. -/
def Onward (s t : State) : Prop := State.Inv t ∧ (s.phase.busy = true → s.cur ≤ t.cur)

theorem onward_of_cur_eq (h : State.Inv t) (hcur : t.cur = s.cur) : Onward s t := ⟨h, fun _ => hcur.ge⟩

theorem Parsing.onward (h : Parsing s.cur t) : Onward s t := ⟨h.inv, fun _ => h.start_le⟩

theorem Parsing.onward_raise (h : Parsing s.cur t) (e : DecodeError) : Onward s (raise e s.cur t) :=
  ⟨h.errorSafe.inv_raise e h.start_le, fun _ => h.start_le⟩

theorem onward_shortSignature (h : State.Inv s) (hp : s.phase = .sig) : Onward s (shortSignature s) :=
  ⟨inv_shortSignature h hp, fun hb => (regsWithin_of_inv h hb).cur_le⟩

theorem onward_shortChunk (h : State.Inv s) (hp : s.phase = .chunks) : Onward s (shortChunk s) :=
  ⟨(parsing_of_inv h hp).inv_shortChunk, fun hb => (regsWithin_of_inv h hb).cur_le⟩

theorem execSig_onward {magic : Word64} (h : State.Inv s) (hs : execSig magic s = .next t) : Onward s t := by
  obtain ⟨hp, ⟨-, rfl⟩ | ⟨hle, ⟨-, rfl⟩ | ⟨-, rfl⟩⟩⟩ := execSig_next hs
  · exact onward_shortSignature h hp
  · have hin : InputOk s := h.1
    have hstart := eq_startDecode_of_inv h hp
    refine ⟨?_, fun _ => Nat.le_add_right _ _⟩
    rw [hstart] at hle ⊢
    have hparse : ParseOk (acceptSignature { startDecode s with cur := 0 + 8 }) :=
      ⟨rfl, ⟨rfl, rfl⟩, Memory.dense_nil, Nat.le_refl _, hle, Nat.zero_le _, rfl, rfl, rfl, rfl, rfl, rfl⟩
    exact inv_of_parseOk hin hparse hparse
  · exact ⟨(errorSafe_of_sig h hp _).inv_raise _ (Nat.zero_le _), fun _ => Nat.le_add_right _ _⟩

/-- S_CHUNK (R78) around any operation that keeps the loop consistent. -/
theorem chunkStep_onward {op : State → OpResult} (h : State.Inv s) (hop : OpKeepsParsing op)
    (hs : chunkStep op s = .next t) : Onward s t := by
  obtain ⟨hp, ⟨-, rfl⟩ | ⟨hle, ⟨e, u, hu, rfl⟩ | ⟨u, hu, hend⟩⟩⟩ := chunkStep_next hs
  · exact onward_shortChunk h hp
  · exact (hop.raised ((parsing_of_inv h hp).advance hle) hu).onward_raise e
  · have hdone := hop.done ((parsing_of_inv h hp).advance hle) hu
    rcases hend with ⟨-, rfl⟩ | ⟨hle', rfl⟩
    · exact hdone.drain.onward_raise _
    · exact (hdone.advance hle').onward

theorem rowStep_onward {predict : Predictor} (h : State.Inv s) (hs : rowStep predict s = .next t) : Onward s t := by
  obtain ⟨hp, rp, e, rfl⟩ := rowStep_next hs
  exact onward_of_cur_eq (inv_finishRow h hp (rowLoop_dense (rowReady_of_inv h hp) e)) (finishRow_cur rp s)

theorem execSInflate_onward (h : State.Inv s) (hs : execSInflate s = .next t) : Onward s t := by
  have hin : InputOk s := h.1
  obtain ⟨hp, hcases⟩ := execSInflate_next hs
  have hparse := parseOk_of_inflate h hp
  have hsafe := errorSafe_of_parseOk hin hparse
  rcases hcases with ⟨e, rfl⟩ | ⟨bpp, hv, hdepth, hbpp, hres⟩
  · exact onward_of_cur_eq (hsafe.inv_raise e (Nat.le_refl _)) rfl
  · have hgeo := hsafe.setGeometry (bppOf_cases hbpp)
    rcases hres with rfl | ⟨e, rfl⟩ | ⟨r, hlen, rfl⟩
    · exact onward_of_cur_eq (hgeo.inv_raise _ (Nat.le_refl _)) rfl
    · exact onward_of_cur_eq (hgeo.afterInflate.inv_raise e (Nat.le_refl _)) rfl
    · exact onward_of_cur_eq (inv_fillScanlines hin hparse hv hdepth hbpp hlen) rfl

theorem execSStart_onward (h : State.Inv s) (hs : execSStart s = .next t) : Onward s t := by
  rcases execSStart_next hs with ⟨-, rfl⟩ | ⟨hb, -, rfl⟩
  · exact onward_of_cur_eq h rfl
  · exact ⟨inv_startDecode h.1, fun hb' => absurd (hb.symm.trans hb') Bool.false_ne_true⟩

/-- Every instruction keeps the invariant, and while BUSY none moves the cursor back. -/
theorem exec_onward {i : Instr} (h : State.Inv s) (hs : exec i s = .next t) : Onward s t := by
  cases i with
  | sig magic => exact execSig_onward h hs
  | ihdr len => exact chunkStep_onward h (opIhdr_keepsParsing len) hs
  | idat len => exact chunkStep_onward h (opIdat_keepsParsing len) hs
  | iend len => exact chunkStep_onward h (opIend_keepsParsing len) hs
  | plte len => exact chunkStep_onward h (opPlte_keepsParsing len) hs
  | other len tag => exact chunkStep_onward h (opOther_keepsParsing len) hs
  | none => exact rowStep_onward (predict := predictNone) h hs
  | sub => exact rowStep_onward (predict := predictSub) h hs
  | up => exact rowStep_onward (predict := predictUp) h hs
  | average => exact rowStep_onward (predict := predictAverage) h hs
  | paeth => exact rowStep_onward (predict := predictPaeth) h hs
  | unknown ftype =>
    have hrow : rowStep predictUnknown (markUnknownFilter s) = .next t := hs
    have hmark : Onward (markUnknownFilter s) t :=
      rowStep_onward (inv_markUnknownFilter h (rowStep_next hrow).1) hrow
    exact hmark
  | sStart => exact execSStart_onward h hs
  | sInflate => exact execSInflate_onward h hs

/-! ## Every step -/

/-- The invariant sees of the host's side only IN, and of IN while BUSY only that it is a sequence of N bytes. -/
theorem phaseOk_withEnv {env : Env} (h : PhaseOk s) (hlen : s.phase.busy = true → env.input.length = s.inLen) :
    PhaseOk { s with env := env } := by
  have parse (hb : s.phase.busy = true) : ParseOk s → ParseOk { s with env := env } := by
    rintro ⟨hsig, hhdr, hcp, h8, hcur, hrest⟩
    exact ⟨hsig, hhdr, hcp, h8, hcur.trans_eq (hlen hb).symm, hrest⟩
  unfold PhaseOk at h
  split at h <;> rename_i hp
  case h_1 | h_2 => rw [h]; exact rfl
  all_goals
    simp only [hp, Phase.busy, forall_const] at hlen parse
    simp only [PhaseOk, hp]
  case h_3 => exact parse h
  case h_4 => exact ⟨parse h.1, h.2.trans hlen.symm⟩
  case h_5 =>
    obtain ⟨himage, hcur, hrest⟩ := h
    exact ⟨himage, hcur.trans_eq hlen.symm, hrest⟩
  case h_6 | h_7 => exact h

theorem inv_withEnv {env : Env} (h : State.Inv s) (hin : Memory.dense env.input env.input.length)
    (hlen : s.phase.busy = true → env.input.length = s.inLen) : State.Inv { s with env := env } := by
  obtain ⟨-, hgeo, hcp, hfs, hrp, hphase⟩ := h
  exact ⟨hin, hgeo, hcp, hfs, hrp, phaseOk_withEnv hphase hlen⟩

/-- Taking a move off the host's list changes nothing the invariant speaks of. -/
theorem inv_popMove (h : State.Inv s) : State.Inv (popMove s) := inv_withEnv h h.1 fun _ => rfl

/-- A stream bound while not BUSY is a sequence of bytes (R40). -/
theorem inv_bind (h : State.Inv s) (hb : s.phase.busy = false) (bytes : List Byte) :
    State.Inv { s with env := { s.env with input := Memory.ofBytes 0 bytes, bound := true } } := by
  have hin := Memory.ofBytes_dense bytes
  rw [← Memory.ofBytes_length 0 bytes] at hin
  exact inv_withEnv h hin fun hb' => absurd (hb.symm.trans hb') Bool.false_ne_true

/-- The block's own step while BUSY keeps the invariant and does not move the cursor back. -/
theorem blockAction_onward (h : State.Inv s) (hb : s.phase.busy = true) (hs : (blockAction s).outcome = .next t) :
    Onward s t := by
  rcases blockAction_busy hb hs with ⟨i, hi⟩ | ⟨hp, rfl⟩ | ⟨hp, rfl⟩
  · exact exec_onward h hi
  · exact onward_shortSignature h hp
  · exact onward_shortChunk h hp

theorem blockAction_inv (h : State.Inv s) (hs : (blockAction s).outcome = .next t) : State.Inv t := by
  cases hb : s.phase.busy with
  | true => exact (blockAction_onward h hb hs).1
  | false => rw [blockAction_rest hb] at hs; cases hs; exact h

theorem hostAction_inv {m : HostMove} (hm : m ≠ .wait) (h : State.Inv s)
    (hs : (hostAction m s).outcome = .next t) : State.Inv t := by
  rcases hostAction_next hm hs with ⟨rfl, -⟩ | ⟨rfl, -⟩ | ⟨hi, -⟩ | ⟨hb, bytes, -, rfl⟩
  · exact h
  · exact inv_resetIn h.1
  · exact (exec_onward h hi).1
  · exact inv_bind h hb bytes

end

/-! ## O51, O52, O53 and O57 -/

/-- Settles O51: the reset state beside a host that has bound no stream. -/
theorem resetMeetsTheInvariant : Obligations.ResetMeetsTheInvariant := by
  unfold Obligations.ResetMeetsTheInvariant
  exact inv_resetIn Memory.dense_nil

/-- Settles O52, by the cases of the instruction. -/
theorem instructionsKeepTheInvariant : Obligations.InstructionsKeepTheInvariant := by
  unfold Obligations.InstructionsKeepTheInvariant
  intro i s t h hs
  exact (exec_onward h hs).1

/-- Settles O53: the block's own step runs an instruction or ends a phase, and each move of the host keeps the invariant. -/
theorem stepKeepsTheInvariant : Obligations.StepKeepsTheInvariant := by
  unfold Obligations.StepKeepsTheInvariant
  intro s t h hs
  rcases blockMoves_or_hostMove s with hm | ⟨m, hm, hhead⟩
  · rw [step_of_blockMoves hm] at hs
    exact blockAction_inv (inv_popMove h) hs
  · rw [step_of_hostMove hhead] at hs
    exact hostAction_inv hm (inv_popMove h) hs

/-- Settles O57: the lower bound by `blockAction_onward`, the upper bound by `RegsWithin`, which every step keeps. -/
theorem cursorOnlyMovesForward : Obligations.CursorOnlyMovesForward := by
  unfold Obligations.CursorOnlyMovesForward
  intro s t h hm hs hb
  refine ⟨?_, ((regsWithin_of_inv h hb).after_step hb hs).cur_le⟩
  rw [step_of_blockMoves hm] at hs
  exact (blockAction_onward (s := popMove s) (inv_popMove h) hb hs).2 hb

end Sys2Proof.Machine

/-! PROOF. No rule reads COMPRESSION, FILTERMETHOD or INTERLACE (10_state.md R19): from a state with other values there every
operation answers the same, up to the three registers. -/

namespace Sys2Proof.Machine

/-! ## Answers with their state mapped -/

/-- A step's answer with its next state mapped. -/
def mapNext (g : State → State) : StepOutcome → StepOutcome
  | .next s => .next (g s)
  | .fault r => .fault r
  | .refused r => .refused r

/-- A chunk operation's answer with its state mapped. -/
def OpResult.mapState (g : State → State) : OpResult → OpResult
  | .done s => .done (g s)
  | .raised e s => .raised e (g s)
  | .stop r => .stop r

/-- A stream read's answer with its state mapped. -/
def StreamResult.mapState (g : State → State) : StreamResult → StreamResult
  | .bytes b s => .bytes b (g s)
  | .short s => .short (g s)
  | .hole a => .hole a

theorem eq_next_of_mapNext_eq {g : State → State} {o : StepOutcome} {u : State} (h : mapNext g o = .next u) :
    ∃ t, o = .next t ∧ g t = u := by
  cases o with
  | next t => cases h; exact ⟨t, rfl, rfl⟩
  | fault r => cases h
  | refused r => cases h

/-- The three method registers at 0: two states agree on it exactly if they differ in nothing else. -/
def clearMethods (s : State) : State := withMethods 0#8 0#8 0#8 s

section
variable (c f l : Byte)

/-! ## withMethods -/

@[simp] theorem withMethods_phase (s : State) : (withMethods c f l s).phase = s.phase := rfl
@[simp] theorem withMethods_cur (s : State) : (withMethods c f l s).cur = s.cur := rfl
@[simp] theorem withMethods_bitDepth (s : State) : (withMethods c f l s).hdr.bitDepth = s.hdr.bitDepth := rfl
@[simp] theorem withMethods_colorMode (s : State) : (withMethods c f l s).hdr.colorMode = s.hdr.colorMode := rfl
@[simp] theorem withMethods_geo (s : State) : (withMethods c f l s).geo = s.geo := rfl
@[simp] theorem withMethods_cpLen (s : State) : (withMethods c f l s).cpLen = s.cpLen := rfl
@[simp] theorem withMethods_flags (s : State) : (withMethods c f l s).flags = s.flags := rfl
@[simp] theorem withMethods_cp (s : State) : (withMethods c f l s).cp = s.cp := rfl
@[simp] theorem withMethods_rp (s : State) : (withMethods c f l s).rp = s.rp := rfl
@[simp] theorem withMethods_env (s : State) : (withMethods c f l s).env = s.env := rfl

/-- An answer that only carries other methods along is the same up to the methods. -/
theorem mapNext_clear_of_carried {o o' : StepOutcome} (h : o' = mapNext (withMethods c f l) o) :
    mapNext clearMethods o' = mapNext clearMethods o := by
  subst h
  cases o <;> rfl

/-! ## The operations that carry the three registers along -/

theorem streamRead_withMethods (n : Nat) (s : State) :
    streamRead n (withMethods c f l s) = (streamRead n s).mapState (withMethods c f l) := by
  unfold streamRead
  show (if s.cur + n ≤ s.inLen then _ else _) = _
  split
  · simp only [withMethods_env, withMethods_cur]
    cases Memory.readBytes s.env.input s.cur n <;> rfl
  · rfl

theorem execSig_withMethods (magic : Word64) (s : State) :
    execSig magic (withMethods c f l s) = mapNext (withMethods c f l) (execSig magic s) := by
  simp only [execSig, withMethods_phase, streamRead_withMethods]
  split
  · cases streamRead 8 s with
    | bytes b t => simp only [StreamResult.mapState]; split <;> rfl
    | short t => rfl
    | hole a => rfl
  · rfl

theorem rowLoop_withMethods (predict : Predictor) (s : State) (n x : Nat) (rp : Memory) :
    rowLoop predict (withMethods c f l s) n x rp = rowLoop predict s n x rp := by
  induction n generalizing x rp with
  | zero => rfl
  | succ n ih =>
    have hbyte : reconByte predict (withMethods c f l s) rp x = reconByte predict s rp x := rfl
    simp only [rowLoop, hbyte, ih]
    rfl

theorem finishRow_withMethods (rp : Memory) (s : State) :
    finishRow rp (withMethods c f l s) = withMethods c f l (finishRow rp s) := by
  unfold finishRow
  show (if s.y + 1#32 = s.hdr.height then _ else _) = _
  split <;> rfl

theorem rowStep_withMethods (predict : Predictor) (s : State) :
    rowStep predict (withMethods c f l s) = mapNext (withMethods c f l) (rowStep predict s) := by
  simp only [rowStep, withMethods_phase, withMethods_geo, withMethods_rp, rowLoop_withMethods, finishRow_withMethods]
  split
  · cases rowLoop predict s s.geo.stride 0 s.rp <;> rfl
  · rfl

theorem takeAnswer_withMethods (r : InflateAnswer) (s : State) :
    takeAnswer r (withMethods c f l s) = withMethods c f l (takeAnswer r s) := by
  cases r with
  | fail => rfl
  | ok bytes =>
    show (if bytes.length ≠ s.geo.expLen then _ else _) = withMethods c f l (if _ then _ else _)
    split <;> rfl

theorem callService_withMethods (s : State) :
    callService (withMethods c f l s) = mapNext (withMethods c f l) (callService s) := by
  have hafter : afterInflate (withMethods c f l s) = withMethods c f l (afterInflate s) := rfl
  simp only [callService, withMethods_cp, withMethods_cpLen, withMethods_env, withMethods_geo, hafter,
    takeAnswer_withMethods]
  cases Memory.readBytes s.cp 0 s.cpLen <;> rfl

theorem execSInflate_withMethods (s : State) :
    execSInflate (withMethods c f l s) = mapNext (withMethods c f l) (execSInflate s) := by
  have hgeo (bpp : BitVec 3) : setGeometry bpp (withMethods c f l s) = withMethods c f l (setGeometry bpp s) := rfl
  simp only [execSInflate, withMethods_phase, withMethods_flags, withMethods_bitDepth, withMethods_colorMode, hgeo,
    withMethods_geo, withMethods_env, callService_withMethods]
  split
  · split
    · rfl
    · split
      · rfl
      · cases bppOf s.hdr.colorMode with
        | none => rfl
        | some bpp => dsimp only; split <;> rfl
  · rfl

/-! ## The chunk operations

OpIHDR loads the three registers, so from two states that differ in them it leaves the same values: the answers agree up to
the methods, and that is what S_CHUNK needs of an operation. -/

/-- The operation's answer does not depend on the three registers, but for the three registers. -/
def OpIgnoresMethods (op : State → OpResult) : Prop :=
  ∀ (c f l : Byte) (s : State), (op (withMethods c f l s)).mapState clearMethods = (op s).mapState clearMethods

theorem withPayload_ignoresMethods (n : Nat) {k : List Byte → State → OpResult} (hk : ∀ p, OpIgnoresMethods (k p)) :
    OpIgnoresMethods fun s => withPayload n s k := by
  intro c f l s
  simp only [withPayload, streamRead_withMethods]
  cases streamRead n s with
  | bytes p t => exact hk p c f l t
  | short t => rfl
  | hole a => rfl

theorem opIhdr_ignoresMethods (len : Word32) : OpIgnoresMethods (opIhdr len) := by
  intro c f l s
  unfold opIhdr
  show OpResult.mapState _ (if s.flags.hdrValid = true then _ else _) = _
  split
  · rfl
  split
  · rfl
  · refine withPayload_ignoresMethods 13 (fun p c f l t => ?_) c f l s
    split <;> rfl

theorem opIdat_ignoresMethods (len : Word32) : OpIgnoresMethods (opIdat len) := by
  intro c f l s
  unfold opIdat
  show OpResult.mapState _ (if s.flags.hdrValid = false then _
    else if exceeds (s.cpLen + len.toNat) s.env.cpCap = true then _ else _) = _
  split
  · rfl
  split
  · rfl
  · exact withPayload_ignoresMethods len.toNat (fun p c f l t => rfl) c f l s

theorem opIend_ignoresMethods (len : Word32) : OpIgnoresMethods (opIend len) := by
  intro c f l s
  simp only [opIend]
  split <;> rfl

theorem opPlte_ignoresMethods (len : Word32) : OpIgnoresMethods (opPlte len) := fun _ _ _ _ => rfl

theorem opOther_ignoresMethods (len : Word32) : OpIgnoresMethods (opOther len) :=
  withPayload_ignoresMethods len.toNat fun _ _ _ _ _ => rfl

theorem skipChecksum_withMethods (start : Nat) (s : State) :
    skipChecksum start (withMethods c f l s) = mapNext (withMethods c f l) (skipChecksum start s) := by
  simp only [skipChecksum, streamRead_withMethods]
  cases streamRead 4 s <;> rfl

/-- The end of S_CHUNK up to the methods, from the operation's answer up to the methods. -/
theorem mapNext_clear_finishChunk (start : Nat) (r : OpResult) :
    mapNext clearMethods (finishChunk start r) = finishChunk start (r.mapState clearMethods) := by
  cases r with
  | done t => exact (skipChecksum_withMethods 0#8 0#8 0#8 start t).symm
  | raised e t => rfl
  | stop r => rfl

theorem chunkStep_ignoresMethods {op : State → OpResult} (hop : OpIgnoresMethods op) (s : State) :
    mapNext clearMethods (chunkStep op (withMethods c f l s)) = mapNext clearMethods (chunkStep op s) := by
  simp only [chunkStep, withMethods_phase, streamRead_withMethods]
  split
  · cases streamRead 4 s with
    | bytes b t =>
      simp only [StreamResult.mapState, streamRead_withMethods]
      cases streamRead 4 t with
      | bytes b u => simp only [withMethods_cur, mapNext_clear_finishChunk, hop c f l u]
      | short u => rfl
      | hole a => rfl
    | short t => rfl
    | hole a => rfl
  · rfl

theorem execSStart_ignoresMethods (s : State) :
    mapNext clearMethods (execSStart (withMethods c f l s)) = mapNext clearMethods (execSStart s) := by
  unfold execSStart
  show mapNext _ (if s.phase.busy = true then _ else if s.env.bound = false then _ else _) = _
  split
  · rfl
  · split <;> rfl

/-! ## O60 -/

/-- Every instruction answers the same from a state with other methods, up to the methods. -/
theorem exec_ignoresMethods (i : Instr) (s : State) :
    mapNext clearMethods (exec i (withMethods c f l s)) = mapNext clearMethods (exec i s) := by
  have row (predict : Predictor) (s : State) :
      mapNext clearMethods (rowStep predict (withMethods c f l s)) = mapNext clearMethods (rowStep predict s) :=
    mapNext_clear_of_carried c f l (rowStep_withMethods c f l predict s)
  cases i with
  | sig magic => exact mapNext_clear_of_carried c f l (execSig_withMethods c f l magic s)
  | ihdr len => exact chunkStep_ignoresMethods c f l (opIhdr_ignoresMethods len) s
  | idat len => exact chunkStep_ignoresMethods c f l (opIdat_ignoresMethods len) s
  | iend len => exact chunkStep_ignoresMethods c f l (opIend_ignoresMethods len) s
  | plte len => exact chunkStep_ignoresMethods c f l (opPlte_ignoresMethods len) s
  | other len tag => exact chunkStep_ignoresMethods c f l (opOther_ignoresMethods len) s
  | none => exact row predictNone s
  | sub => exact row predictSub s
  | up => exact row predictUp s
  | average => exact row predictAverage s
  | paeth => exact row predictPaeth s
  | unknown ftype => exact row predictUnknown (markUnknownFilter s)
  | sStart => exact execSStart_ignoresMethods c f l s
  | sInflate => exact mapNext_clear_of_carried c f l (execSInflate_withMethods c f l s)

end

/-- Settles O60, by `exec_ignoresMethods`. -/
theorem methodBytesAreNeverRead : Obligations.MethodBytesAreNeverRead := by
  unfold Obligations.MethodBytesAreNeverRead
  intro i s t c f l hs
  have hout := exec_ignoresMethods c f l i s
  rw [hs] at hout
  exact eq_next_of_mapNext_eq hout

end Sys2Proof.Machine

/-! PROOF. What the host sees of the block and what its moves do (10_state.md R14, R25, R31, R32, R34, R37). -/

namespace Sys2Proof.Machine

/-! ## The conditions on PHASE -/

theorem Phase.busy_iff (p : Phase) : p.busy = true ↔ p = .sig ∨ p = .chunks ∨ p = .inflate ∨ p = .defilter := by
  cases p <;> decide

theorem Phase.isDone_iff (p : Phase) : p.isDone = true ↔ p = .done := beq_iff_eq

theorem Phase.isErr_iff (p : Phase) : p.isErr = true ↔ p = .fault := beq_iff_eq

/-- Settles O13: the three conditions name the phases they hold in, and each phase is in one list. -/
theorem oneOfIdleBusyDoneErr : Obligations.OneOfIdleBusyDoneErr := by
  unfold Obligations.OneOfIdleBusyDoneErr
  intro s
  refine ⟨Phase.busy_iff _, Phase.isDone_iff _, Phase.isErr_iff _, ?_⟩
  rw [Phase.busy_iff, Phase.isDone_iff, Phase.isErr_iff]
  cases s.phase <;> decide

/-! ## Writes of the host -/

/-- A write of a register other than CTRL is ignored (R34). -/
theorem step_write_ignored {s : State} {reg : Nat} {value : Word32} (hreg : reg ≠ 0)
    (h : s.env.host.head? = some (.write reg value)) : step s = .next (popMove s) := by
  rw [step_of_hostMove h, hostAction, if_neg hreg, Action.outcome_become]

/-- A write of register 0 is a write of CTRL. -/
theorem step_write_ctrl {s : State} {value : Word32} (h : s.env.host.head? = some (.write 0 value)) :
    step s = (ctrlAction value (popMove s)).outcome := by
  rw [step_of_hostMove h, hostAction, if_pos rfl]

/-! ## STATUS (R32)

The eight summands of `statusWord` stand at different powers of two, each with what is below it smaller than the next power:
a field is the sum divided by its power and cut off. -/

/-- What each summand of STATUS can be. -/
theorem statusSummands_bounded (s : State) :
    s.phase.busy.toNat ≤ 1 ∧ s.phase.isDone.toNat ≤ 1 ∧ s.phase.isErr.toNat ≤ 1 ∧ s.flags.sigOk.toNat ≤ 1 ∧
      s.flags.hdrValid.toNat ≤ 1 ∧ s.flags.iendSeen.toNat ≤ 1 ∧ s.flags.unkFilt.toNat ≤ 1 ∧ s.phase.code.toNat < 8 :=
  ⟨Bool.toNat_le _, Bool.toNat_le _, Bool.toNat_le _, Bool.toNat_le _, Bool.toNat_le _, Bool.toNat_le _,
    Bool.toNat_le _, s.phase.code.isLt⟩

/-- STATUS as the number the model builds it from. -/
theorem statusWord_toNat (s : State) :
    (statusWord s).toNat =
      s.phase.busy.toNat + 2 * s.phase.isDone.toNat + 4 * s.phase.isErr.toNat + 8 * s.flags.sigOk.toNat
        + 16 * s.flags.hdrValid.toNat + 32 * s.flags.iendSeen.toNat + 64 * s.flags.unkFilt.toNat
        + 256 * s.phase.code.toNat := by
  obtain ⟨h0, h1, h2, h3, h4, h5, h6, hcode⟩ := statusSummands_bounded s
  rw [statusWord, BitVec.toNat_ofNat, Nat.mod_eq_of_lt]
  omega

theorem getLsbD_eq_of_div {w : Word32} {k : Nat} {b : Bool} (h : w.toNat / 2 ^ k % 2 = b.toNat) : w.getLsbD k = b := by
  rw [BitVec.getLsbD, Nat.testBit_eq_decide_div_mod_eq, h]
  cases b <;> rfl

/-- Bits 10:8 of STATUS are the code of PHASE. -/
theorem statusWord_code (s : State) : (statusWord s).extractLsb' 8 3 = s.phase.code := by
  have hsum := statusWord_toNat s
  obtain ⟨h0, h1, h2, h3, h4, h5, h6, hcode⟩ := statusSummands_bounded s
  apply BitVec.eq_of_toNat_eq
  rw [BitVec.extractLsb'_toNat, Nat.shiftRight_eq_div_pow]
  omega

/-- The bits of STATUS from 11 on are 0. -/
theorem statusWord_high (s : State) {k : Nat} (hk : 11 ≤ k) : (statusWord s).getLsbD k = false := by
  have hsum := statusWord_toNat s
  obtain ⟨h0, h1, h2, h3, h4, h5, h6, hcode⟩ := statusSummands_bounded s
  have hlt : (statusWord s).toNat < 2 ^ 11 := by omega
  exact Nat.testBit_lt_two_pow (hlt.trans_le (Nat.pow_le_pow_right (by decide) hk))

/-- Settles O12: each field by dividing the sum, the write because register 1 is not CTRL. -/
theorem statusBits : Obligations.StatusBits := by
  unfold Obligations.StatusBits
  intro s
  have hsum := statusWord_toNat s
  obtain ⟨h0, h1, h2, h3, h4, h5, h6, -⟩ := statusSummands_bounded s
  have hphase (p : Phase) (hp : s.phase = p) : (statusWord s).extractLsb' 8 3 = p.code := hp ▸ statusWord_code s
  refine ⟨getLsbD_eq_of_div (by omega), getLsbD_eq_of_div (by omega), getLsbD_eq_of_div (by omega),
    getLsbD_eq_of_div (by omega), getLsbD_eq_of_div (by omega), getLsbD_eq_of_div (by omega),
    getLsbD_eq_of_div (by omega), getLsbD_eq_of_div (by rw [Bool.toNat_false]; omega), statusWord_code s,
    ⟨hphase _, hphase _, hphase _, hphase _, hphase _, hphase _, hphase _⟩, fun k hk => statusWord_high s hk, rfl,
    fun v hv => step_write_ignored (by decide) hv⟩

/-! ## The register map (R34) -/

theorem hostRead_above (s : State) {n : Nat} (hn : 17 < n) : hostRead s n = 0 := by
  have hne {k : Nat} (hk : k ≤ 17) : n ≠ k := by omega
  simp only [hostRead, hne, Nat.reduceLeDiff, if_false]

theorem hostRead_reset (n : Nat) : hostRead State.reset n = 0 := by
  rcases Nat.lt_or_ge 17 n with hn | hn
  · exact hostRead_above _ hn
  · interval_cases n <;> rfl

/-- Settles O14: the eighteen numbers by the table, the others by `hostRead_above`. -/
theorem registerMap : Obligations.RegisterMap := by
  unfold Obligations.RegisterMap
  intro s
  refine ⟨rfl, rfl, rfl, rfl, rfl, rfl, rfl, rfl, rfl, rfl, rfl, rfl, rfl, rfl, rfl, rfl, rfl, rfl,
    fun n hn => hostRead_above s hn, fun n v hn hv => step_write_ignored hn hv, hostRead_reset⟩

/-! ## CTRL and the binding of a stream (R31, R40) -/

/-- S_START once a stream is bound, out of BUSY (R76). -/
theorem execSStart_starts {s : State} (hb : s.phase.busy = false) (hbound : s.env.bound = true) :
    exec .sStart s = .next (startDecode s) := by
  show execSStart s = _
  rw [execSStart, if_neg (ne_true_of_eq_false hb), if_neg (ne_false_of_eq_true hbound)]

/-- S_START while BUSY is ignored (R145). -/
theorem execSStart_busy {s : State} (hb : s.phase.busy = true) : exec .sStart s = .next s := by
  show execSStart s = _
  rw [execSStart, if_pos hb]

/-- A space made of bytes from address 0 on reads as the bytes. -/
theorem read_ofBytes_zero (bytes : List Byte) (a : Nat) : Memory.read (Memory.ofBytes 0 bytes) a = bytes[a]? := by
  rw [Memory.read_ofBytes, if_neg (Nat.not_lt_zero a), Nat.sub_zero]

/-- Settles O15: the cases of `ctrlAction`, then the two of a bind. -/
theorem ctrlCommands : Obligations.CtrlCommands := by
  unfold Obligations.CtrlCommands
  intro s
  refine ⟨fun value hw => ?_, rfl, fun bytes hbind => ⟨fun hb => ?_, fun hb => ?_⟩⟩
  · rw [step_write_ctrl hw]
    refine ⟨fun h1 => ?_, fun h1 h0 => ?_, fun h1 h0 hb => ?_, fun h1 h0 hb hbound => ?_⟩
    · rw [ctrlAction, if_pos h1]; rfl
    · rw [ctrlAction, if_neg (ne_true_of_eq_false h1), if_neg (ne_true_of_eq_false h0)]; rfl
    · rw [ctrlAction_start h0 h1, Action.outcome_run, execSStart_busy (s := popMove s) hb]
    · rw [ctrlAction_start h0 h1, Action.outcome_run, execSStart_starts (s := popMove s) hb hbound]; rfl
  · refine ⟨_, ?_, rfl, Memory.ofBytes_dense bytes, read_ofBytes_zero bytes⟩
    rw [step_of_hostMove hbind, hostAction, popMove_phase, if_neg (ne_true_of_eq_false hb)]; rfl
  · rw [step_of_hostMove hbind, hostAction, popMove_phase, if_pos hb]; rfl

/-! ## The reset state (R37) -/

/-- Settles O18: every field of the reset state is a literal of the model. -/
theorem resetState : Obligations.ResetState := by
  unfold Obligations.ResetState
  exact ⟨rfl, rfl, rfl, rfl, rfl, rfl, rfl, rfl, rfl, rfl, rfl, rfl, rfl, rfl, rfl, rfl, rfl, rfl, rfl, rfl, rfl, rfl, rfl,
    rfl, rfl, fun _ => rfl⟩

end Sys2Proof.Machine

/-! PROOF. The four byte spaces and the host's side (20_memory.md R38 to R43): what a `StreamRead` answers, that no instruction
writes the environment, and that from a state of the invariant no access misses its space. -/

namespace Sys2Proof.Machine

/-! ## StreamRead (R43) -/

theorem streamRead_zero {s : State} (h : s.cur ≤ s.inLen) : streamRead 0 s = .bytes [] s :=
  streamRead_of_le h rfl

/-- Settles O22: the bytes that fit are those of IN at the cursor, since IN has no holes. -/
theorem streamReadRule : Obligations.StreamReadRule := by
  unfold Obligations.StreamReadRule
  intro s n hin hcur
  refine ⟨fun hle => ?_, streamRead_of_gt, streamRead_zero hcur⟩
  obtain ⟨b, hb⟩ := Memory.readBytes_of_dense hin hle
  exact ⟨b, streamRead_of_le hle hb, Memory.readBytes_length hb, Memory.readBytes_get hb⟩

section
variable {s t : State}

/-! ## No instruction writes the environment (R39, R40) -/

/-- A chunk operation that leaves the environment alone, whether it completes or raises an error. -/
structure OpKeepsEnv (op : State → OpResult) : Prop where
  raised : ∀ {s e t}, op s = .raised e t → t.env = s.env
  done : ∀ {s t}, op s = .done t → t.env = s.env

theorem opIhdr_keepsEnv (len : Word32) : OpKeepsEnv (opIhdr len) where
  raised hop := by rcases opIhdr_raised hop with rfl | ⟨-, rfl⟩ | ⟨-, rfl⟩ <;> rfl
  done hop := by obtain ⟨-, -, -, p, -, -, -, rfl⟩ := opIhdr_done hop; rfl

theorem opIdat_keepsEnv (len : Word32) : OpKeepsEnv (opIdat len) where
  raised hop := by rcases opIdat_raised hop with rfl | ⟨-, rfl⟩ <;> rfl
  done hop := by obtain ⟨-, -, p, -, -, rfl⟩ := opIdat_done hop; rfl

theorem opIend_keepsEnv (len : Word32) : OpKeepsEnv (opIend len) where
  raised hop := by rw [opIend_raised hop]
  done hop := by rw [(opIend_done hop).2, markIend_env]

theorem opPlte_keepsEnv (len : Word32) : OpKeepsEnv (opPlte len) where
  raised hop := by cases hop; rfl
  done hop := by cases hop

theorem opOther_keepsEnv (len : Word32) : OpKeepsEnv (opOther len) where
  raised hop := by rw [(opOther_raised hop).2, drainInput_env]
  done hop := by rw [(opOther_done hop).2]

/-- S_CHUNK leaves the environment alone where its operation does. -/
theorem chunkStep_env {op : State → OpResult} (hop : OpKeepsEnv op) (hs : chunkStep op s = .next t) :
    t.env = s.env := by
  obtain ⟨-, ⟨-, rfl⟩ | ⟨-, ⟨e, u, hu, rfl⟩ | ⟨u, hu, ⟨-, rfl⟩ | ⟨-, rfl⟩⟩⟩⟩ := chunkStep_next hs
  · rfl
  · exact (hop.raised hu :)
  · exact (hop.done hu :)
  · exact (hop.done hu :)

theorem execSig_env {magic : Word64} (hs : execSig magic s = .next t) : t.env = s.env := by
  obtain ⟨-, ⟨-, rfl⟩ | ⟨-, ⟨-, rfl⟩ | ⟨-, rfl⟩⟩⟩ := execSig_next hs <;> rfl

theorem rowStep_env {predict : Predictor} (hs : rowStep predict s = .next t) : t.env = s.env := by
  obtain ⟨-, rp, -, rfl⟩ := rowStep_next hs
  exact finishRow_env rp s

theorem execSStart_env (hs : execSStart s = .next t) : t.env = s.env := by
  rcases execSStart_next hs with ⟨-, rfl⟩ | ⟨-, -, rfl⟩ <;> rfl

/-- S_INFLATE changes of the environment at most its counter of calls (log entry 4). -/
theorem execSInflate_env (hs : execSInflate s = .next t) :
    t.env = s.env ∨ t.env = { s.env with calls := s.env.calls + 1 } := by
  obtain ⟨-, ⟨e, rfl⟩ | ⟨bpp, -, -, -, rfl | ⟨e, rfl⟩ | ⟨r, -, rfl⟩⟩⟩ := execSInflate_next hs
  · exact Or.inl rfl
  · exact Or.inl rfl
  · exact Or.inr rfl
  · exact Or.inr rfl

/-- Every instruction but S_INFLATE leaves the environment alone. -/
theorem exec_env {i : Instr} (hi : i ≠ .sInflate) (hs : exec i s = .next t) : t.env = s.env := by
  cases i with
  | sig magic => exact execSig_env hs
  | ihdr len => exact chunkStep_env (opIhdr_keepsEnv len) hs
  | idat len => exact chunkStep_env (opIdat_keepsEnv len) hs
  | iend len => exact chunkStep_env (opIend_keepsEnv len) hs
  | plte len => exact chunkStep_env (opPlte_keepsEnv len) hs
  | other len tag => exact chunkStep_env (opOther_keepsEnv len) hs
  | none => exact rowStep_env (predict := predictNone) hs
  | sub => exact rowStep_env (predict := predictSub) hs
  | up => exact rowStep_env (predict := predictUp) hs
  | average => exact rowStep_env (predict := predictAverage) hs
  | paeth => exact rowStep_env (predict := predictPaeth) hs
  | unknown ftype => exact rowStep_env (predict := predictUnknown) (s := markUnknownFilter s) hs
  | sStart => exact execSStart_env hs
  | sInflate => exact absurd rfl hi

end

/-- Settles O21: `exec_env`, and `execSInflate_env` for the one instruction that counts its call. -/
theorem instructionsLeaveTheHostsSide : Obligations.InstructionsLeaveTheHostsSide := by
  unfold Obligations.InstructionsLeaveTheHostsSide
  intro i s t hs
  by_cases hi : i = .sInflate
  · subst hi
    exact (execSInflate_env hs).imp_right fun henv => ⟨rfl, henv⟩
  · exact Or.inl (exec_env hi hs)

section
variable {s : State}

/-! ## No access misses its space (R39) -/

/-- On a stream without holes the operation completes or raises an error of the spec. -/
def OpNeverStops (op : State → OpResult) : Prop := ∀ s f, InputOk s → op s ≠ .stop f

theorem withPayload_neverStops (n : Nat) {k : List Byte → State → OpResult} (hk : ∀ p t f, k p t ≠ .stop f) :
    OpNeverStops fun s => withPayload n s k := by
  intro s f hin hstop
  rcases withPayload_cases n s k hin with ⟨-, heq⟩ | ⟨p, -, -, -, heq⟩
  · cases heq.symm.trans hstop
  · exact hk p _ f (heq.symm.trans hstop)

theorem opIhdr_neverStops (len : Word32) : OpNeverStops (opIhdr len) := by
  intro s f hin
  unfold opIhdr
  split
  · exact OpResult.noConfusion
  · split
    · exact OpResult.noConfusion
    · refine withPayload_neverStops 13 (fun p t f => ?_) s f hin
      split <;> exact OpResult.noConfusion

theorem opIdat_neverStops (len : Word32) : OpNeverStops (opIdat len) := by
  intro s f hin
  unfold opIdat
  split
  · exact OpResult.noConfusion
  · split
    · exact OpResult.noConfusion
    · exact withPayload_neverStops len.toNat (fun _ _ _ => OpResult.noConfusion) s f hin

theorem opIend_neverStops (len : Word32) : OpNeverStops (opIend len) := by
  intro s f _
  unfold opIend
  split <;> exact OpResult.noConfusion

theorem opPlte_neverStops (len : Word32) : OpNeverStops (opPlte len) := fun _ _ _ => OpResult.noConfusion

theorem opOther_neverStops (len : Word32) : OpNeverStops (opOther len) :=
  withPayload_neverStops len.toNat fun _ _ _ => OpResult.noConfusion

/-- S_CHUNK answers where its operation never stops: after the operation IN is what it was, so the checksum is read without
a hole. -/
theorem chunkStep_completes {op : State → OpResult} (hp : s.phase = .chunks) (hin : InputOk s) (henv : OpKeepsEnv op)
    (hstop : OpNeverStops op) : ∃ t, chunkStep op s = .next t := by
  refine chunkStep_answers hp hin ?_
  cases hop : op { s with cur := s.cur + 8 } with
  | done t => exact Or.inr ⟨t, rfl, congrArg Env.input (henv.done hop :)⟩
  | raised e t => exact Or.inl ⟨e, t, rfl⟩
  | stop f => exact absurd hop (hstop _ f hin)

theorem execSig_completes (magic : Word64) (hp : s.phase = .sig) (hin : InputOk s) :
    ∃ t, execSig magic s = .next t := by
  unfold execSig
  rw [if_pos hp]
  split
  · rename_i a ha; exact absurd ha (streamRead_not_hole hin)
  · exact ⟨_, rfl⟩
  · split <;> exact ⟨_, rfl⟩

theorem rowStep_completes (predict : Predictor) (h : State.Inv s) (hp : s.phase = .defilter) :
    ∃ t, rowStep predict s = .next t := by
  obtain ⟨rp, fs, hs, -⟩ := rowStep_spec predict s (rowReady_of_inv h hp)
  exact ⟨_, hs⟩

/-- The service is called with the whole of CP, which has its CP_LEN bytes. -/
theorem callService_completes (hcp : Memory.dense s.cp s.cpLen) : ∃ t, callService s = .next t := by
  obtain ⟨compressed, hread⟩ := Memory.readBytes_of_dense (a := 0) hcp (Nat.zero_add _).le
  simp only [callService, hread]
  exact ⟨_, rfl⟩

theorem execSInflate_completes (hp : s.phase = .inflate) (hcp : Memory.dense s.cp s.cpLen) :
    ∃ t, execSInflate s = .next t := by
  unfold execSInflate
  rw [if_pos hp]
  split
  · exact ⟨_, rfl⟩
  · split
    · exact ⟨_, rfl⟩
    · split
      · exact ⟨_, rfl⟩
      · rename_i bpp _
        split
        · exact ⟨_, rfl⟩
        · exact callService_completes (s := setGeometry bpp s) hcp

end

/-- Settles O54, by the cases of the instruction: the invariant gives the stream, CP, FS and RP their extents. -/
theorem enabledInstructionsComplete : Obligations.EnabledInstructionsComplete := by
  unfold Obligations.EnabledInstructionsComplete
  intro i s h hp hi
  have hin : InputOk s := h.1
  cases i with
  | sig magic => exact execSig_completes magic hp hin
  | ihdr len => exact chunkStep_completes hp hin (opIhdr_keepsEnv len) (opIhdr_neverStops len)
  | idat len => exact chunkStep_completes hp hin (opIdat_keepsEnv len) (opIdat_neverStops len)
  | iend len => exact chunkStep_completes hp hin (opIend_keepsEnv len) (opIend_neverStops len)
  | plte len => exact chunkStep_completes hp hin (opPlte_keepsEnv len) (opPlte_neverStops len)
  | other len tag => exact chunkStep_completes hp hin (opOther_keepsEnv len) (opOther_neverStops len)
  | none => exact rowStep_completes predictNone h hp
  | sub => exact rowStep_completes predictSub h hp
  | up => exact rowStep_completes predictUp h hp
  | average => exact rowStep_completes predictAverage h hp
  | paeth => exact rowStep_completes predictPaeth h hp
  | unknown ftype => exact rowStep_completes predictUnknown (inv_markUnknownFilter h hp) hp
  | sStart => exact absurd rfl hi
  | sInflate =>
    obtain ⟨-, -, hcp, -⟩ := parseOk_of_inflate h hp
    exact execSInflate_completes hp hcp

end Sys2Proof.Machine

/-! PROOF. The decoder and the encoder are each other's inverse (30_encoding.md R59, R60, R68, R70), and missing bytes are
the only reason for which the decoder rejects (R71, R72). The well-formed instructions of a format with an opcode field
are exactly the values of its opcode map, so both directions are said of `chunkInstr` and `rowInstr` alone. -/

namespace Sys2Proof

/-! ## The chunk opcode map (R68, R69) -/

@[simp] theorem chunkInstr_ihdr (len : Word32) : chunkInstr len Tag.ihdr = .ihdr len := rfl
@[simp] theorem chunkInstr_idat (len : Word32) : chunkInstr len Tag.idat = .idat len := rfl
@[simp] theorem chunkInstr_iend (len : Word32) : chunkInstr len Tag.iend = .iend len := rfl
@[simp] theorem chunkInstr_plte (len : Word32) : chunkInstr len Tag.plte = .plte len := rfl

theorem wellFormed_other_iff {len tag : Word32} :
    WellFormed (.other len tag) ↔ tag ≠ Tag.ihdr ∧ tag ≠ Tag.idat ∧ tag ≠ Tag.iend ∧ tag ≠ Tag.plte := by
  simp [WellFormed, Instr.wellFormed, and_assoc]

theorem chunkInstr_other {len tag : Word32} (h : WellFormed (.other len tag)) : chunkInstr len tag = .other len tag := by
  obtain ⟨h1, h2, h3, h4⟩ := wellFormed_other_iff.1 h
  rw [chunkInstr, if_neg h1, if_neg h2, if_neg h3, if_neg h4]

/-- The map's cases: one of the four tags, or a tag that OTHER may carry. -/
theorem tag_cases (len tag : Word32) :
    tag = Tag.ihdr ∨ tag = Tag.idat ∨ tag = Tag.iend ∨ tag = Tag.plte ∨ WellFormed (.other len tag) := by
  rw [wellFormed_other_iff]
  tauto

/-- What the map gives is a well-formed chunk instruction that the encoder writes as its LEN and TYPE. -/
theorem chunkInstr_record (len tag : Word32) :
    WellFormed (chunkInstr len tag) ∧ (chunkInstr len tag).format = .chunk ∧
      encode (chunkInstr len tag) = bytes32 len ++ bytes32 tag := by
  obtain rfl | rfl | rfl | rfl | h := tag_cases len tag
  · exact ⟨rfl, rfl, rfl⟩
  · exact ⟨rfl, rfl, rfl⟩
  · exact ⟨rfl, rfl, rfl⟩
  · exact ⟨rfl, rfl, rfl⟩
  · rw [chunkInstr_other h]
    exact ⟨h, rfl, rfl⟩

/-- Every well-formed chunk instruction is a value of the map. -/
theorem exists_chunkInstr {i : Instr} (hwf : WellFormed i) (hf : i.format = .chunk) :
    ∃ len tag, i = chunkInstr len tag := by
  cases i with
  | ihdr len => exact ⟨len, Tag.ihdr, rfl⟩
  | idat len => exact ⟨len, Tag.idat, rfl⟩
  | iend len => exact ⟨len, Tag.iend, rfl⟩
  | plte len => exact ⟨len, Tag.plte, rfl⟩
  | other len tag => exact ⟨len, tag, (chunkInstr_other hwf).symm⟩
  | _ => cases hf

/-- Comparing TYPE as a number is comparing its four bytes (R69). -/
theorem be32_eq_iff {b0 b1 b2 b3 : Byte} {w : Word32} : be32 b0 b1 b2 b3 = w ↔ [b0, b1, b2, b3] = bytes32 w := by
  constructor
  · rintro rfl
    exact (bytes32_be32 b0 b1 b2 b3).symm
  · intro h
    simp only [bytes32, List.cons.injEq, and_true] at h
    obtain ⟨rfl, rfl, rfl, rfl⟩ := h
    exact be32_bytes w

/-! ## The row opcode map (R70) -/

theorem wellFormed_unknown_iff {f : Byte} : WellFormed (.unknown f) ↔ 4 < f.toNat := by
  simp [WellFormed, Instr.wellFormed]

theorem rowInstr_unknown {f : Byte} (h : WellFormed (.unknown f)) : rowInstr f = .unknown f := by
  have hf : 4 < f.toNat := wellFormed_unknown_iff.1 h
  have hne : ∀ k : Byte, k.toNat ≤ 4 → f ≠ k := by rintro k hk rfl; omega
  rw [rowInstr, if_neg (hne _ (by decide)), if_neg (hne _ (by decide)), if_neg (hne _ (by decide)),
    if_neg (hne _ (by decide)), if_neg (hne _ (by decide))]

/-- The map's cases: one of the five filter types, or a type that UNKNOWN may carry. -/
theorem ftype_cases (f : Byte) : f = 0#8 ∨ f = 1#8 ∨ f = 2#8 ∨ f = 3#8 ∨ f = 4#8 ∨ WellFormed (.unknown f) := by
  rw [wellFormed_unknown_iff]
  bv_omega

/-- What the map gives is a well-formed row instruction that the encoder writes as its FTYPE. -/
theorem rowInstr_record (f : Byte) :
    WellFormed (rowInstr f) ∧ (rowInstr f).format = .row ∧ encode (rowInstr f) = [f] := by
  obtain rfl | rfl | rfl | rfl | rfl | h := ftype_cases f
  · exact ⟨rfl, rfl, rfl⟩
  · exact ⟨rfl, rfl, rfl⟩
  · exact ⟨rfl, rfl, rfl⟩
  · exact ⟨rfl, rfl, rfl⟩
  · exact ⟨rfl, rfl, rfl⟩
  · rw [rowInstr_unknown h]
    exact ⟨h, rfl, rfl⟩

/-- Every well-formed row instruction is a value of the map. -/
theorem exists_rowInstr {i : Instr} (hwf : WellFormed i) (hf : i.format = .row) : ∃ f, i = rowInstr f := by
  cases i with
  | none => exact ⟨0#8, rfl⟩
  | sub => exact ⟨1#8, rfl⟩
  | up => exact ⟨2#8, rfl⟩
  | average => exact ⟨3#8, rfl⟩
  | paeth => exact ⟨4#8, rfl⟩
  | unknown f => exact ⟨f, (rowInstr_unknown hwf).symm⟩
  | _ => cases hf

theorem exists_sig {i : Instr} (hf : i.format = .sig) : ∃ magic, i = .sig magic := by
  cases i with
  | sig magic => exact ⟨magic, rfl⟩
  | _ => cases hf

/-! ## The decoder of each format on its fields -/

theorem decode_sig_bytes64 (magic : Word64) (rest : List Byte) :
    decode .sig (bytes64 magic ++ rest) = .ok (.sig magic, rest) := by
  conv_rhs => rw [← be64_bytes magic]
  rfl

theorem decode_chunk_bytes32 (len tag : Word32) (rest : List Byte) :
    decode .chunk (bytes32 len ++ bytes32 tag ++ rest) = .ok (chunkInstr len tag, rest) := by
  conv_rhs => rw [← be32_bytes len, ← be32_bytes tag]
  rfl

theorem decode_row_cons (f : Byte) (rest : List Byte) : decode .row (f :: rest) = .ok (rowInstr f, rest) := rfl

/-! ## What the decoder can answer -/

section
variable {bytes rest : List Byte} {i : Instr}

theorem decode_sig_ok (h : decode .sig bytes = .ok (i, rest)) : ∃ magic, i = .sig magic ∧ bytes = bytes64 magic ++ rest := by
  simp only [decode, decodeSig] at h
  split at h
  · cases h
    exact ⟨_, rfl, by rw [bytes64_be64]; rfl⟩
  · cases h

theorem decode_chunk_ok (h : decode .chunk bytes = .ok (i, rest)) :
    ∃ len tag, i = chunkInstr len tag ∧ bytes = bytes32 len ++ bytes32 tag ++ rest := by
  simp only [decode, decodeChunk] at h
  split at h
  · cases h
    exact ⟨_, _, rfl, by rw [bytes32_be32, bytes32_be32]; rfl⟩
  · cases h
  · cases h

theorem decode_row_ok (h : decode .row bytes = .ok (i, rest)) : ∃ f, i = rowInstr f ∧ bytes = f :: rest := by
  cases bytes with
  | nil => cases h
  | cons f _ => cases h; exact ⟨f, rfl, rfl⟩

/-! ## Missing bytes (R71, R72, R77, R79, R80) -/

theorem exists_four_bytes (h : 4 ≤ bytes.length) : ∃ b0 b1 b2 b3 tail, bytes = b0 :: b1 :: b2 :: b3 :: tail := by
  match bytes, h with
  | b0 :: b1 :: b2 :: b3 :: tail, _ => exact ⟨b0, b1, b2, b3, tail, rfl⟩

theorem exists_eight_bytes (h : 8 ≤ bytes.length) :
    ∃ b0 b1 b2 b3 b4 b5 b6 b7 rest, bytes = b0 :: b1 :: b2 :: b3 :: b4 :: b5 :: b6 :: b7 :: rest := by
  match bytes, h with
  | b0 :: b1 :: b2 :: b3 :: b4 :: b5 :: b6 :: b7 :: rest, _ => exact ⟨b0, b1, b2, b3, b4, b5, b6, b7, rest, rfl⟩

theorem decode_sig_of_lt (h : bytes.length < 8) : decode .sig bytes = .error .shortSignature := by
  simp only [decode, decodeSig]
  split
  · simp only [List.length_cons] at h
    omega
  · rfl

theorem decode_chunk_of_lt_four (h : bytes.length < 4) : decode .chunk bytes = .error .shortLength := by
  simp only [decode, decodeChunk]
  split
  · simp only [List.length_cons] at h
    omega
  · simp only [List.length_cons] at h
    omega
  · rfl

theorem decode_chunk_of_lt_eight (h4 : 4 ≤ bytes.length) (h8 : bytes.length < 8) :
    decode .chunk bytes = .error .shortType := by
  obtain ⟨b0, b1, b2, b3, tail, rfl⟩ := exists_four_bytes h4
  simp only [decode, decodeChunk]
  split
  · rename_i heq
    rw [heq] at h8
    simp only [List.length_cons] at h8
    omega
  · rfl
  · rename_i hne
    exact absurd rfl (hne b0 b1 b2 b3 tail)

end

/-! ## O1 to O5 -/

/-- Settles O1: a well-formed instruction is its opcode map's value at its fields, and the decoder reads the fields back. -/
theorem decodeOfEncode : Obligations.DecodeOfEncode := by
  unfold Obligations.DecodeOfEncode
  intro i rest hwf hrec
  cases hf : i.format with
  | sig =>
    obtain ⟨magic, rfl⟩ := exists_sig hf
    exact decode_sig_bytes64 magic rest
  | chunk =>
    obtain ⟨len, tag, rfl⟩ := exists_chunkInstr hwf hf
    obtain ⟨-, -, henc⟩ := chunkInstr_record len tag
    rw [henc]
    exact decode_chunk_bytes32 len tag rest
  | row =>
    obtain ⟨f, rfl⟩ := exists_rowInstr hwf hf
    obtain ⟨-, -, henc⟩ := rowInstr_record f
    rw [henc]
    exact decode_row_cons f rest
  | unencoded => exact absurd hf hrec

/-- Settles O2: what a decoder answers is its opcode map's value at the fields read, and the encoder writes these fields. -/
theorem decodedRecordReencodes : Obligations.DecodedRecordReencodes := by
  unfold Obligations.DecodedRecordReencodes
  intro f bytes rest i h
  cases f with
  | sig =>
    obtain ⟨magic, rfl, hbytes⟩ := decode_sig_ok h
    exact ⟨rfl, rfl, hbytes⟩
  | chunk =>
    obtain ⟨len, tag, rfl, hbytes⟩ := decode_chunk_ok h
    obtain ⟨hwf, hf, henc⟩ := chunkInstr_record len tag
    exact ⟨hwf, hf, by rw [henc, hbytes]⟩
  | row =>
    obtain ⟨ftype, rfl, hbytes⟩ := decode_row_ok h
    obtain ⟨hwf, hf, henc⟩ := rowInstr_record ftype
    exact ⟨hwf, hf, by rw [henc, hbytes]; rfl⟩
  | unencoded => cases h

/-- Settles O4: the decoders' patterns are met exactly by the bytes that are long enough. -/
theorem onlyShortRecordsAreRejected : Obligations.OnlyShortRecordsAreRejected := by
  unfold Obligations.OnlyShortRecordsAreRejected
  intro bytes
  refine ⟨decode_sig_of_lt, decode_chunk_of_lt_four, decode_chunk_of_lt_eight, fun h => ?_, fun h => ?_⟩
  · obtain ⟨b0, b1, b2, b3, b4, b5, b6, b7, rest, rfl⟩ := exists_eight_bytes h
    exact ⟨⟨_, rfl⟩, ⟨_, rfl⟩⟩
  · obtain ⟨f, rest, rfl⟩ := List.exists_cons_of_length_pos h
    exact ⟨_, decode_row_cons f rest⟩

/-- Settles O5: TYPE is a tag when its bytes are the tag's, and the chunk opcode map does the rest. -/
theorem typeSelectsTheChunkOperation : Obligations.TypeSelectsTheChunkOperation := by
  unfold Obligations.TypeSelectsTheChunkOperation
  intro l0 l1 l2 l3 t0 t1 t2 t3
  refine ⟨chunkInstr (be32 l0 l1 l2 l3) (be32 t0 t1 t2 t3), rfl, fun h => ?_, fun h => ?_, fun h => ?_, fun h => ?_,
    fun h1 h2 h3 h4 => chunkInstr_other (wellFormed_other_iff.2 ⟨?_, ?_, ?_, ?_⟩)⟩
  · rw [(be32_eq_iff (w := Tag.ihdr)).2 h, chunkInstr_ihdr]
  · rw [(be32_eq_iff (w := Tag.idat)).2 h, chunkInstr_idat]
  · rw [(be32_eq_iff (w := Tag.iend)).2 h, chunkInstr_iend]
  · rw [(be32_eq_iff (w := Tag.plte)).2 h, chunkInstr_plte]
  · exact fun h => h1 (be32_eq_iff.1 h)
  · exact fun h => h2 (be32_eq_iff.1 h)
  · exact fun h => h3 (be32_eq_iff.1 h)
  · exact fun h => h4 (be32_eq_iff.1 h)

/-- Settles O3: the decoder computes on each of the fourteen words. -/
theorem wordsOfTheSpecDecode : Obligations.WordsOfTheSpecDecode := by
  unfold Obligations.WordsOfTheSpecDecode
  exact ⟨rfl, rfl, rfl, rfl, rfl, rfl, rfl, rfl, rfl, rfl, rfl, rfl, rfl, rfl⟩

end Sys2Proof

/-! PROOF. The front of unit CSP and the transfer table (40_stream_front.md R76 to R84): what the block does of its own in
each PHASE, the signature record, and where PHASE can go. -/

namespace Sys2Proof.Machine

/-! ## Errors as outcomes (60_exceptions.md R130) -/

/-- The error recorded is the one raised, and only what `Faulted` names has changed. -/
theorem raises_raise (e : DecodeError) (pos : Nat) (s : State) :
    Raises (.next (raise e pos s)) e.kindCode e.subCode pos s :=
  ⟨_, rfl, _, _, _, rfl⟩

section
variable {s t : State}

/-! ## A stream too short for a record of 8 bytes (R77, R79, R80) -/

theorem available_of_lt (h : s.inLen < s.cur + 8) : available s = s.inLen - s.cur := by
  rw [available]
  omega

/-- What is left of a stream without holes is read, and it is too short. -/
theorem readBytes_available_short (hin : InputOk s) (hcur : s.cur ≤ s.inLen) (hlt : s.inLen < s.cur + 8) :
    ∃ bytes, Memory.readBytes s.env.input s.cur (available s) = some bytes ∧ bytes.length < 8 := by
  rw [available_of_lt hlt]
  obtain ⟨bytes, hb⟩ := Memory.readBytes_of_dense (k := s.inLen - s.cur) hin (Nat.add_sub_cancel' hcur).le
  exact ⟨bytes, hb, by rw [Memory.readBytes_length hb]; omega⟩

theorem decode_chunk_short {bytes : List Byte} (h : bytes.length < 8) : ∃ r, decode .chunk bytes = .error r := by
  rcases Nat.lt_or_ge bytes.length 4 with h4 | h4
  · exact ⟨_, decode_chunk_of_lt_four h4⟩
  · exact ⟨_, decode_chunk_of_lt_eight h4 h⟩

theorem blockAction_sig_short (hp : s.phase = .sig) (hin : InputOk s) (hcur : s.cur ≤ s.inLen)
    (hlt : s.inLen < s.cur + 8) : blockAction s = .become (shortSignature s) := by
  obtain ⟨bytes, hb, hlen⟩ := readBytes_available_short hin hcur hlt
  simp only [blockAction, hp, hb, decode_sig_of_lt hlen]

theorem blockAction_chunk_short (hp : s.phase = .chunks) (hin : InputOk s) (hcur : s.cur ≤ s.inLen)
    (hlt : s.inLen < s.cur + 8) : blockAction s = .become (shortChunk s) := by
  obtain ⟨bytes, hb, hlen⟩ := readBytes_available_short hin hcur hlt
  obtain ⟨r, hd⟩ := decode_chunk_short hlen
  simp only [blockAction, hp, hb, hd]

/-! ## The signature record (R77) -/

theorem execSig_of_le (magic : Word64) (hp : s.phase = .sig) (hin : InputOk s) (hle : s.cur + 8 ≤ s.inLen) :
    execSig magic s = if magic = sigMagic then .next (acceptSignature { s with cur := s.cur + 8 })
      else .next (raise .badSignature 0 { s with cur := s.cur + 8 }) := by
  obtain ⟨bytes, hb⟩ := Memory.readBytes_of_dense hin hle
  simp only [execSig, if_pos hp, streamRead_of_le hle hb]

theorem execSig_of_lt (magic : Word64) (hp : s.phase = .sig) (hlt : s.inLen < s.cur + 8) :
    execSig magic s = .next (shortSignature s) := by
  simp only [execSig, if_pos hp, streamRead_of_gt hlt, shortSignature]

/-! ## What the block's own action can be (R84) -/

theorem format_of_decode {f : Format} {bytes rest : List Byte} {i : Instr} (h : decode f bytes = .ok (i, rest)) :
    i.format = f :=
  (decodedRecordReencodes f bytes rest i h).2.1

/-- The instruction is one the block runs of its own in phase `p`: S_START is the host's. -/
def RunsIn (p : Phase) (i : Instr) : Prop := i ≠ .sStart ∧ enabledIn i p

theorem runsIn_sig {i : Instr} (h : i.format = .sig) : RunsIn .sig i := by
  obtain ⟨magic, rfl⟩ := exists_sig h
  exact ⟨Instr.noConfusion, rfl⟩

theorem runsIn_chunks {i : Instr} (h : i.format = .chunk) : RunsIn .chunks i := by
  cases i with
  | ihdr | idat | iend | plte | other => exact ⟨Instr.noConfusion, rfl⟩
  | _ => cases h

theorem runsIn_defilter {i : Instr} (h : i.format = .row) : RunsIn .defilter i := by
  cases i with
  | none | sub | up | average | paeth | unknown => exact ⟨Instr.noConfusion, rfl⟩
  | _ => cases h

/-- The block rests, runs an instruction of its phase, ends a phase for want of a record, or stops on a missing byte. -/
theorem blockAction_cases (s : State) :
    (s.phase.busy = false ∧ blockAction s = .become s) ∨
      (∃ i, RunsIn s.phase i ∧ blockAction s = .run i s) ∨
      (s.phase = .sig ∧ blockAction s = .become (shortSignature s)) ∨
      (s.phase = .chunks ∧ blockAction s = .become (shortChunk s)) ∨
      ∃ f, blockAction s = .fault f := by
  unfold blockAction
  split <;> rename_i hp <;> rw [hp]
  case h_1 | h_2 | h_3 => exact Or.inl ⟨rfl, rfl⟩
  case h_4 =>
    split
    · exact Or.inr (Or.inr (Or.inr (Or.inr ⟨_, rfl⟩)))
    · split
      · rename_i hd; exact Or.inr (Or.inl ⟨_, runsIn_sig (format_of_decode hd), rfl⟩)
      · exact Or.inr (Or.inr (Or.inl ⟨rfl, rfl⟩))
  case h_5 =>
    split
    · exact Or.inr (Or.inr (Or.inr (Or.inr ⟨_, rfl⟩)))
    · split
      · rename_i hd; exact Or.inr (Or.inl ⟨_, runsIn_chunks (format_of_decode hd), rfl⟩)
      · exact Or.inr (Or.inr (Or.inr (Or.inl ⟨rfl, rfl⟩)))
  case h_6 => exact Or.inr (Or.inl ⟨.sInflate, ⟨Instr.noConfusion, rfl⟩, rfl⟩)
  case h_7 =>
    split
    · exact Or.inr (Or.inr (Or.inr (Or.inr ⟨_, rfl⟩)))
    · split
      · rename_i hd; exact Or.inr (Or.inl ⟨_, runsIn_defilter (format_of_decode hd), rfl⟩)
      · exact Or.inr (Or.inr (Or.inr (Or.inr ⟨_, rfl⟩)))

/-- Everything a step of the block's own that answers a next state can be. -/
theorem blockAction_next (hs : (blockAction s).outcome = .next t) :
    (s.phase.busy = false ∧ t = s) ∨ (∃ i, RunsIn s.phase i ∧ exec i s = .next t) ∨
      (s.phase = .sig ∧ t = shortSignature s) ∨ (s.phase = .chunks ∧ t = shortChunk s) := by
  rcases blockAction_cases s with ⟨hb, ha⟩ | ⟨i, hi, ha⟩ | ⟨hp, ha⟩ | ⟨hp, ha⟩ | ⟨f, ha⟩ <;> rw [ha] at hs
  · cases hs; exact Or.inl ⟨hb, rfl⟩
  · exact Or.inr (Or.inl ⟨i, hi, hs⟩)
  · cases hs; exact Or.inr (Or.inr (Or.inl ⟨hp, rfl⟩))
  · cases hs; exact Or.inr (Or.inr (Or.inr ⟨hp, rfl⟩))
  · cases hs

/-! ## The families of instructions (R77, R78, R93, R100) -/

/-- What S_CHUNK may rely on of the operation it frames. -/
structure ChunkOp (op : State → OpResult) : Prop where
  parsing : OpKeepsParsing op
  env : OpKeepsEnv op
  phase : ∀ {s t}, op s = .done t → t.phase = s.phase

theorem opIhdr_chunkOp (len : Word32) : ChunkOp (opIhdr len) where
  parsing := opIhdr_keepsParsing len
  env := opIhdr_keepsEnv len
  phase hop := by obtain ⟨-, -, -, p, -, -, -, rfl⟩ := opIhdr_done hop; rfl

theorem opIdat_chunkOp (len : Word32) : ChunkOp (opIdat len) where
  parsing := opIdat_keepsParsing len
  env := opIdat_keepsEnv len
  phase hop := by obtain ⟨-, -, p, -, -, rfl⟩ := opIdat_done hop; rfl

theorem opIend_chunkOp (len : Word32) : ChunkOp (opIend len) where
  parsing := opIend_keepsParsing len
  env := opIend_keepsEnv len
  phase hop := by rw [(opIend_done hop).2, markIend_phase]

theorem opPlte_chunkOp (len : Word32) : ChunkOp (opPlte len) where
  parsing := opPlte_keepsParsing len
  env := opPlte_keepsEnv len
  phase hop := by cases hop

theorem opOther_chunkOp (len : Word32) : ChunkOp (opOther len) where
  parsing := opOther_keepsParsing len
  env := opOther_keepsEnv len
  phase hop := by rw [(opOther_done hop).2]

/-- Whatever the block runs of its own is the signature, an operation in the frame of S_CHUNK, a row, or S_INFLATE. -/
theorem exec_families {p : Phase} {i : Instr} (hi : RunsIn p i) (hs : exec i s = .next t) :
    (∃ magic, execSig magic s = .next t) ∨ (∃ op, ChunkOp op ∧ chunkStep op s = .next t) ∨
      (∃ predict u, (u = s ∨ u = markUnknownFilter s) ∧ rowStep predict u = .next t) ∨
      execSInflate s = .next t := by
  cases i with
  | sig magic => exact Or.inl ⟨magic, hs⟩
  | ihdr len => exact Or.inr (Or.inl ⟨_, opIhdr_chunkOp len, hs⟩)
  | idat len => exact Or.inr (Or.inl ⟨_, opIdat_chunkOp len, hs⟩)
  | iend len => exact Or.inr (Or.inl ⟨_, opIend_chunkOp len, hs⟩)
  | plte len => exact Or.inr (Or.inl ⟨_, opPlte_chunkOp len, hs⟩)
  | other len tag => exact Or.inr (Or.inl ⟨_, opOther_chunkOp len, hs⟩)
  | none => exact Or.inr (Or.inr (Or.inl ⟨predictNone, s, Or.inl rfl, hs⟩))
  | sub => exact Or.inr (Or.inr (Or.inl ⟨predictSub, s, Or.inl rfl, hs⟩))
  | up => exact Or.inr (Or.inr (Or.inl ⟨predictUp, s, Or.inl rfl, hs⟩))
  | average => exact Or.inr (Or.inr (Or.inl ⟨predictAverage, s, Or.inl rfl, hs⟩))
  | paeth => exact Or.inr (Or.inr (Or.inl ⟨predictPaeth, s, Or.inl rfl, hs⟩))
  | unknown ftype => exact Or.inr (Or.inr (Or.inl ⟨predictUnknown, _, Or.inr rfl, hs⟩))
  | sStart => exact absurd rfl hi.1
  | sInflate => exact Or.inr (Or.inr (Or.inr hs))

/-! ## Where PHASE goes (R84) -/

theorem execSig_phase {magic : Word64} (hs : execSig magic s = .next t) :
    s.phase = .sig ∧ (t.phase = .chunks ∨ t.phase = .fault) := by
  obtain ⟨hp, ⟨-, rfl⟩ | ⟨-, ⟨-, rfl⟩ | ⟨-, rfl⟩⟩⟩ := execSig_next hs
  · exact ⟨hp, Or.inr rfl⟩
  · exact ⟨hp, Or.inl rfl⟩
  · exact ⟨hp, Or.inr rfl⟩

theorem chunkStep_phase {op : State → OpResult} (hop : ChunkOp op) (hs : chunkStep op s = .next t) :
    s.phase = .chunks ∧ (t.phase = .chunks ∨ t.phase = .inflate ∨ t.phase = .fault) := by
  obtain ⟨hp, ⟨-, rfl⟩ | ⟨-, ⟨e, u, -, rfl⟩ | ⟨u, hu, ⟨-, rfl⟩ | ⟨-, rfl⟩⟩⟩⟩ := chunkStep_next hs
  · exact ⟨hp, Or.inr (Or.inl rfl)⟩
  · exact ⟨hp, Or.inr (Or.inr rfl)⟩
  · exact ⟨hp, Or.inr (Or.inr rfl)⟩
  · exact ⟨hp, Or.inl ((hop.phase hu).trans hp)⟩

theorem rowStep_phase {predict : Predictor} (hs : rowStep predict s = .next t) :
    s.phase = .defilter ∧ (t.phase = .defilter ∨ t.phase = .done) := by
  obtain ⟨hp, rp, -, rfl⟩ := rowStep_next hs
  rw [finishRow_phase, hp]
  split
  · exact ⟨rfl, Or.inr rfl⟩
  · exact ⟨rfl, Or.inl rfl⟩

theorem execSInflate_phase (hs : execSInflate s = .next t) :
    s.phase = .inflate ∧ (t.phase = .defilter ∨ t.phase = .fault) := by
  obtain ⟨hp, ⟨e, rfl⟩ | ⟨bpp, -, -, -, rfl | ⟨e, rfl⟩ | ⟨r, -, rfl⟩⟩⟩ := execSInflate_next hs
  · exact ⟨hp, Or.inr rfl⟩
  · exact ⟨hp, Or.inr rfl⟩
  · exact ⟨hp, Or.inr rfl⟩
  · exact ⟨hp, Or.inl rfl⟩

/-- The block's part of the transfer table: it rests, ends a phase for want of a record, or runs one of the families. -/
theorem blockAction_phase (hs : (blockAction s).outcome = .next t) :
    (s.phase.busy = false ∧ t.phase = s.phase) ∨ (s.phase = .sig ∧ (t.phase = .chunks ∨ t.phase = .fault)) ∨
      (s.phase = .chunks ∧ (t.phase = .chunks ∨ t.phase = .inflate ∨ t.phase = .fault)) ∨
      (s.phase = .inflate ∧ (t.phase = .defilter ∨ t.phase = .fault)) ∨
      (s.phase = .defilter ∧ (t.phase = .defilter ∨ t.phase = .done)) := by
  rcases blockAction_next hs with ⟨hb, rfl⟩ | ⟨i, hi, hexec⟩ | ⟨hp, rfl⟩ | ⟨hp, rfl⟩
  · exact Or.inl ⟨hb, rfl⟩
  · rcases exec_families hi hexec with ⟨magic, h⟩ | ⟨op, hop, h⟩ | ⟨predict, u, hu, h⟩ | h
    · exact Or.inr (Or.inl (execSig_phase h))
    · exact Or.inr (Or.inr (Or.inl (chunkStep_phase hop h)))
    · have hup : u.phase = s.phase := by rcases hu with rfl | rfl <;> rfl
      exact Or.inr (Or.inr (Or.inr (Or.inr (hup ▸ rowStep_phase h))))
    · exact Or.inr (Or.inr (Or.inr (Or.inl (execSInflate_phase h))))
  · exact Or.inr (Or.inl ⟨hp, Or.inr rfl⟩)
  · exact Or.inr (Or.inr (Or.inl ⟨hp, Or.inr (Or.inl rfl)⟩))

end

/-! ## O7, O8, O9, O11, O16, O25 and O26 -/

/-- Settles O7: what is left is no record of format CHUNK, and the block ends the loop. -/
theorem shortLengthOrTypeEndsTheLoop : Obligations.ShortLengthOrTypeEndsTheLoop := by
  unfold Obligations.ShortLengthOrTypeEndsTheLoop
  intro s hm hp hin hcur hlt
  rw [step_of_blockMoves hm, blockAction_chunk_short (s := popMove s) hp hin hcur hlt]
  rfl

/-- Settles O8: what is left is no record of format SIG, and the block takes the error at position 0. -/
theorem shortSignatureFaults : Obligations.ShortSignatureFaults := by
  unfold Obligations.ShortSignatureFaults
  intro s hm hp hin hcur hlt
  rw [step_of_blockMoves hm, blockAction_sig_short (s := popMove s) hp hin hcur hlt]
  exact raises_raise .truncatedSignature 0 (drainInput (popMove s))

/-- Settles O9: none of the three phases is BUSY, so the block's action is to rest. -/
theorem idleDoneAndFaultRest : Obligations.IdleDoneAndFaultRest := by
  unfold Obligations.IdleDoneAndFaultRest
  intro s hm hp
  have hb : (popMove s).phase.busy = false := by rcases hp with hp | hp | hp <;> rw [popMove_phase, hp] <;> rfl
  rw [step_of_blockMoves hm, blockAction_rest hb, Action.outcome_become]

/-- Settles O11: the phases of `blockAction_phase` are those of the table. -/
theorem phaseTransfersFollowTheTable : Obligations.PhaseTransfersFollowTheTable := by
  unfold Obligations.PhaseTransfersFollowTheTable
  intro s t hm hs
  rw [step_of_blockMoves hm] at hs
  have htable := blockAction_phase hs
  rw [popMove_phase] at htable
  rcases htable with ⟨hb, ht⟩ | ⟨hp, ht⟩ | ⟨hp, ht⟩ | ⟨hp, ht⟩ | ⟨hp, ht⟩
  · cases hp : s.phase <;> rw [hp] at hb ht
    case idle | done | fault => exact ht
    all_goals cases hb
  all_goals rw [hp]; exact ht

/-- Settles O16: S_START leaves every field of the block at its literal reset value, with PHASE SIG. -/
theorem sStartBeginsADecode : Obligations.SStartBeginsADecode := by
  unfold Obligations.SStartBeginsADecode
  intro s hb hbound
  exact ⟨startDecode s, execSStart_starts hb hbound, rfl, rfl, rfl, rfl, rfl, rfl, rfl, rfl, rfl, rfl, rfl, rfl, rfl, rfl,
    rfl, rfl, rfl, rfl, rfl, rfl, rfl, rfl, rfl, rfl, rfl, rfl⟩

/-- Settles O25: the eight bytes are there and MAGIC is the one accepted. -/
theorem signatureAccepted : Obligations.SignatureAccepted := by
  unfold Obligations.SignatureAccepted
  intro s hp hin hle
  exact (execSig_of_le sigMagic hp hin hle).trans (if_pos rfl)

/-- Settles O26: another MAGIC once its eight bytes are consumed, and a stream without eight bytes. -/
theorem signatureRefused : Obligations.SignatureRefused := by
  unfold Obligations.SignatureRefused
  intro s magic hp hin _
  refine ⟨fun hle hne => ?_, fun hlt => ?_⟩
  · rw [show exec (.sig magic) s = _ from (execSig_of_le magic hp hin hle).trans (if_neg hne)]
    exact raises_raise .badSignature 0 { s with cur := s.cur + 8 }
  · rw [show exec (.sig magic) s = _ from execSig_of_lt magic hp hlt]
    exact raises_raise .truncatedSignature 0 (drainInput s)

end Sys2Proof.Machine

/-! PROOF. The frame of a chunk (40_stream_front.md R83, R86): a checksum cut short, and that of the stream's bytes a chunk
reads only its payload. -/

namespace Sys2Proof.Machine

section
variable {s t : State}

/-! ## The operations on a payload that is there (R87, R88, R89, R91) -/

theorem withPayload_of_le {n : Nat} {p : List Byte} {k : List Byte → State → OpResult} (hle : s.cur + n ≤ s.inLen)
    (hp : Memory.readBytes s.env.input s.cur n = some p) :
    withPayload n s k = k p { s with cur := s.cur + n } := by
  simp only [withPayload, streamRead_of_le hle hp]

/-- `exceeds` is false exactly where every finite capacity suffices. -/
theorem exceeds_eq_false_iff {n : Nat} {cap : Option Nat} : exceeds n cap = false ↔ ∀ c, cap = some c → n ≤ c := by
  cases cap <;> simp [exceeds]

theorem opOther_of_le {len : Word32} (hin : InputOk s) (hle : s.cur + len.toNat ≤ s.inLen) :
    opOther len s = .done { s with cur := s.cur + len.toNat } := by
  obtain ⟨p, hp⟩ := Memory.readBytes_of_dense hin hle
  exact withPayload_of_le hle hp

theorem opIend_zero (s : State) : opIend 0#32 s = .done (markIend s) := if_neg (not_not_intro rfl)

theorem opIdat_of_le {len : Word32} {p : List Byte} (hv : s.flags.hdrValid = true)
    (hcap : ∀ cap, s.env.cpCap = some cap → s.cpLen + len.toNat ≤ cap) (hle : s.cur + len.toNat ≤ s.inLen)
    (hp : Memory.readBytes s.env.input s.cur len.toNat = some p) :
    opIdat len s = .done (appendPayload len.toNat p { s with cur := s.cur + len.toNat }) := by
  rw [opIdat, if_neg (ne_false_of_eq_true hv), if_neg (ne_true_of_eq_false (exceeds_eq_false_iff.2 hcap)),
    withPayload_of_le hle hp]

theorem opIhdr_of_le {p : List Byte} (hv : s.flags.hdrValid = false) (hle : s.cur + 13 ≤ s.inLen)
    (hp : Memory.readBytes s.env.input s.cur 13 = some p) (hw : (headerOf p).width ≠ 0#32)
    (hh : (headerOf p).height ≠ 0#32) :
    opIhdr 13#32 s = .done (latchHeader (headerOf p) { s with cur := s.cur + 13 }) := by
  rw [opIhdr, if_neg (ne_true_of_eq_false hv), if_neg (not_not_intro rfl), withPayload_of_le hle hp,
    if_neg (not_or.2 ⟨hw, hh⟩)]

/-! ## The checksum (R83) -/

/-- A checksum cut short is an error at the chunk's offset, taken in the state the operation left. -/
theorem chunkStep_shortChecksum {op : State → OpResult} (hr : ChunkReady s 0)
    (hop : op { s with cur := s.cur + 8 } = .done t) (hlt : t.inLen < t.cur + 4) :
    chunkStep op s = .next (raise .truncatedChecksum s.cur (drainInput t)) := by
  obtain ⟨hp, hin, hle⟩ := hr
  rw [chunkStep_run hp hin hle, hop]
  simp only [finishChunk, skipChecksum, streamRead_of_gt hlt]

end

/-- Settles O34: each operation completes on its payload, and `chunkStep_shortChecksum` does the rest. -/
theorem shortChecksumFaults : Obligations.ShortChecksumFaults := by
  unfold Obligations.ShortChecksumFaults
  intro s hr
  obtain ⟨hp, hin, -⟩ := id hr
  refine ⟨fun len tag hle hlt => ?_, fun hlt => ?_, fun len hv hcap hle hlt => ?_, ?_⟩
  · have hop := opOther_of_le (s := { s with cur := s.cur + 8 }) hin hle
    have hshort : s.inLen < s.cur + 8 + len.toNat + 4 := by omega
    exact ⟨_, chunkStep_shortChecksum hr hop hshort, _, _, _, rfl⟩
  · exact ⟨_, chunkStep_shortChecksum hr (opIend_zero _) hlt, _, _, _, rfl⟩
  · obtain ⟨p, hread⟩ := Memory.readBytes_of_dense (m := s.env.input) hin hle
    have hop := opIdat_of_le (s := { s with cur := s.cur + 8 }) hv hcap hle hread
    have hshort : s.inLen < s.cur + 8 + len.toNat + 4 := by omega
    exact ⟨_, chunkStep_shortChecksum hr hop hshort, _, _, _, rfl⟩
  · intro w0 w1 w2 w3 h0 h1 h2 h3 depth color m0 m1 m2 hv hle hlt hread hw hh
    have hop := opIhdr_of_le (s := { s with cur := s.cur + 8 }) hv hle hread hw hh
    exact ⟨_, chunkStep_shortChecksum hr hop hlt, _, _, _, rfl⟩

section
variable {s : State} {input : Memory} {n : Nat}

/-! ## Another stream (R73, R83, R86) -/

@[simp] theorem withInput_cur (input : Memory) (s : State) : (withInput input s).cur = s.cur := rfl

/-- Two streams of one length, neither with a hole: `input` and the one bound in `s`. -/
structure SameLength (input : Memory) (s : State) : Prop where
  bound : InputOk s
  other : Memory.dense input s.inLen

theorem SameLength.inLen_eq (h : SameLength input s) : (withInput input s).inLen = s.inLen :=
  Memory.dense_length h.other

theorem SameLength.inputOk (h : SameLength input s) : InputOk (withInput input s) := by
  show Memory.dense input (withInput input s).inLen
  rw [h.inLen_eq]
  exact h.other

theorem SameLength.congr (h : SameLength input s) {t : State} (henv : t.env = s.env) : SameLength input t := by
  have hlen : t.inLen = s.inLen := by rw [State.inLen, henv]; rfl
  exact ⟨by rw [InputOk, hlen, henv]; exact h.bound, hlen ▸ h.other⟩

theorem SameLength.drainInput_eq (h : SameLength input s) :
    drainInput (withInput input s) = withInput input (drainInput s) := by
  rw [drainInput, h.inLen_eq]
  rfl

/-- The two streams agree on the `n` bytes at the cursor. -/
def AgreeAtCursor (n : Nat) (input : Memory) (s : State) : Prop :=
  ∀ a, s.cur ≤ a → a < s.cur + n → Memory.read input a = Memory.read s.env.input a

/-- The operation does the same on two streams of one length that agree on its `n` payload bytes. -/
def OpReadsOnly (n : Nat) (op : State → OpResult) : Prop :=
  ∀ input s, SameLength input s → AgreeAtCursor n input s →
    op (withInput input s) = (op s).mapState (withInput input)

theorem withPayload_readsOnly (n : Nat) {k : List Byte → State → OpResult}
    (hk : ∀ p input s, k p (withInput input s) = (k p s).mapState (withInput input)) :
    OpReadsOnly n fun s => withPayload n s k := by
  intro input s hlen hagree
  rcases Nat.lt_or_ge s.inLen (s.cur + n) with hlt | hle
  · have hlt' : (withInput input s).inLen < (withInput input s).cur + n := hlen.inLen_eq ▸ hlt
    simp only [withPayload, streamRead_of_gt hlt, streamRead_of_gt hlt', hlen.drainInput_eq, OpResult.mapState]
  · obtain ⟨p, hp⟩ := Memory.readBytes_of_dense hlen.bound hle
    have hp' : Memory.readBytes (withInput input s).env.input (withInput input s).cur n = some p :=
      (Memory.readBytes_congr hagree).trans hp
    have hle' : (withInput input s).cur + n ≤ (withInput input s).inLen := hlen.inLen_eq ▸ hle
    simp only [withPayload_of_le hle hp, withPayload_of_le hle' hp']
    exact hk p input { s with cur := s.cur + n }

theorem opIhdr_readsOnly (len : Word32) : OpReadsOnly 13 (opIhdr len) := by
  intro input s hlen hagree
  unfold opIhdr
  show (if s.flags.hdrValid = true then _ else _) = _
  split
  · rfl
  split
  · rfl
  · refine withPayload_readsOnly 13 (fun p input t => ?_) input s hlen hagree
    split <;> rfl

theorem opIdat_readsOnly (len : Word32) : OpReadsOnly len.toNat (opIdat len) := by
  intro input s hlen hagree
  unfold opIdat
  show (if s.flags.hdrValid = false then _
    else if exceeds (s.cpLen + len.toNat) s.env.cpCap = true then _ else _) = _
  split
  · rfl
  split
  · rfl
  · exact withPayload_readsOnly len.toNat (fun p input t => rfl) input s hlen hagree

theorem opIend_readsOnly (len : Word32) : OpReadsOnly 0 (opIend len) := by
  intro input s _ _
  simp only [opIend]
  split <;> rfl

theorem opPlte_readsOnly (len : Word32) : OpReadsOnly 0 (opPlte len) := fun _ _ _ _ => rfl

theorem opOther_readsOnly (len : Word32) : OpReadsOnly len.toNat (opOther len) :=
  withPayload_readsOnly len.toNat fun _ _ _ => rfl

/-- The checksum's four bytes may be anything: only that they are there matters. -/
theorem skipChecksum_withInput (start : Nat) (hlen : SameLength input s) :
    skipChecksum start (withInput input s) = mapNext (withInput input) (skipChecksum start s) := by
  rcases Nat.lt_or_ge s.inLen (s.cur + 4) with hlt | hle
  · have hlt' : (withInput input s).inLen < (withInput input s).cur + 4 := hlen.inLen_eq ▸ hlt
    simp only [skipChecksum, streamRead_of_gt hlt, streamRead_of_gt hlt', hlen.drainInput_eq]
    rfl
  · obtain ⟨b, hb⟩ := Memory.readBytes_of_dense hlen.bound hle
    have hle' : (withInput input s).cur + 4 ≤ (withInput input s).inLen := hlen.inLen_eq ▸ hle
    obtain ⟨b', hb'⟩ := Memory.readBytes_of_dense hlen.inputOk hle'
    simp only [skipChecksum, streamRead_of_le hle hb, streamRead_of_le hle' hb']
    rfl

theorem chunkStep_notEnabled {op : State → OpResult} (hp : s.phase ≠ .chunks) :
    chunkStep op s = .fault .stepNotEnabled :=
  if_neg hp

/-- S_CHUNK around an operation that reads only its payload: LEN, TYPE and the checksum are counted, not read. -/
theorem chunkStep_withInput {op : State → OpResult} (henv : OpKeepsEnv op) (hop : OpReadsOnly n op)
    (hlen : SameLength input s) (hagree : AgreeAtCursor n input { s with cur := s.cur + 8 }) :
    chunkStep op (withInput input s) = mapNext (withInput input) (chunkStep op s) := by
  by_cases hp : s.phase = .chunks
  case neg => rw [chunkStep_notEnabled hp, chunkStep_notEnabled (s := withInput input s) hp]; rfl
  rcases Nat.lt_or_ge s.inLen (s.cur + 8) with hlt | hle
  · have hlt' : (withInput input s).inLen < (withInput input s).cur + 8 := hlen.inLen_eq ▸ hlt
    have hshort' := chunkStep_short (op := op) (s := withInput input s) hp hlen.inputOk hlt'
    rw [chunkStep_short hp hlen.bound hlt, hshort', shortChunk, hlen.drainInput_eq]
    rfl
  · have hle' : (withInput input s).cur + 8 ≤ (withInput input s).inLen := hlen.inLen_eq ▸ hle
    have hsame : SameLength input { s with cur := s.cur + 8 } := hlen.congr rfl
    have hres : op { withInput input s with cur := s.cur + 8 } = _ := hop input _ hsame hagree
    have hrun' := chunkStep_run (op := op) (s := withInput input s) hp hlen.inputOk hle'
    rw [chunkStep_run hp hlen.bound hle, hrun', withInput_cur, hres]
    cases hr : op { s with cur := s.cur + 8 } with
    | done t => exact skipChecksum_withInput s.cur (hsame.congr (henv.done hr))
    | raised e t => rfl
    | stop f => rfl

/-- Each chunk instruction reads of the stream only its payload. -/
theorem exec_withInput {i : Instr} (hi : i.format = .chunk) (hlen : SameLength input s)
    (hagree : AgreeAtCursor (payloadLength i) input { s with cur := s.cur + 8 }) :
    exec i (withInput input s) = mapNext (withInput input) (exec i s) := by
  cases i with
  | ihdr len => exact chunkStep_withInput (opIhdr_keepsEnv len) (opIhdr_readsOnly len) hlen hagree
  | idat len => exact chunkStep_withInput (opIdat_keepsEnv len) (opIdat_readsOnly len) hlen hagree
  | iend len => exact chunkStep_withInput (opIend_keepsEnv len) (opIend_readsOnly len) hlen hagree
  | plte len => exact chunkStep_withInput (opPlte_keepsEnv len) (opPlte_readsOnly len) hlen hagree
  | other len tag => exact chunkStep_withInput (opOther_keepsEnv len) (opOther_readsOnly len) hlen hagree
  | _ => cases hi

end

/-- Settles O35, by `exec_withInput`. -/
theorem chunkReadsOnlyItsPayload : Obligations.ChunkReadsOnlyItsPayload := by
  unfold Obligations.ChunkReadsOnlyItsPayload
  intro i s t input hi hin hd hagree hs
  rw [exec_withInput hi ⟨hin, hd⟩ hagree, hs]
  rfl

end Sys2Proof.Machine

/-! PROOF. Progress (40_stream_front.md R84, R85): from a state of the invariant every step answers, and a started decode
ends in DONE or FAULT within the rule's bound. -/

namespace Sys2Proof.Machine

section
variable {s t : State}

/-! ## The block's own action never stops (R39) -/

/-- What is left of the stream, up to eight bytes, is there to read. -/
theorem readBytes_available (hin : InputOk s) (hcur : s.cur ≤ s.inLen) :
    ∃ bytes, Memory.readBytes s.env.input s.cur (available s) = some bytes :=
  Memory.readBytes_of_dense hin (by rw [available]; omega)

/-- While rows remain, FS has the filter-type byte of row Y. -/
theorem read_rowBase (h : State.Inv s) (hp : s.phase = .defilter) : ∃ f, Memory.read s.fs (rowBase s) = some f := by
  obtain ⟨-, hy, -, hfs, -⟩ := rowReady_of_inv h hp
  exact Memory.read_of_dense hfs (Nat.mul_lt_mul_of_pos_right hy (Nat.succ_pos _))

theorem blockAction_ne_fault (h : State.Inv s) (f : Fault) : blockAction s ≠ .fault f := by
  have hin : InputOk s := h.1
  have hread (hb : s.phase.busy = true) := readBytes_available hin (regsWithin_of_inv h hb).cur_le
  cases hp : s.phase <;> simp only [blockAction, hp]
  case idle | done | fault | inflate => exact Action.noConfusion
  case sig | chunks =>
    obtain ⟨bytes, hbytes⟩ := hread (by rw [hp]; rfl)
    rw [hbytes]
    dsimp only
    split <;> exact Action.noConfusion
  case defilter =>
    obtain ⟨b, hb⟩ := read_rowBase h hp
    rw [hb]
    exact Action.noConfusion

/-- From a state of the invariant the block's own step answers: an instruction of its phase does, and the rest is no stop. -/
theorem blockAction_completes (h : State.Inv s) : ∃ t, (blockAction s).outcome = .next t := by
  rcases blockAction_cases s with ⟨-, ha⟩ | ⟨i, ⟨hi, hen⟩, ha⟩ | ⟨-, ha⟩ | ⟨-, ha⟩ | ⟨f, ha⟩
  · exact ⟨s, by rw [ha, Action.outcome_become]⟩
  · rw [ha]; exact enabledInstructionsComplete i s h hen hi
  · exact ⟨_, by rw [ha, Action.outcome_become]⟩
  · exact ⟨_, by rw [ha, Action.outcome_become]⟩
  · exact absurd ha (blockAction_ne_fault h f)

/-! ## The host's moves (R141, R142) -/

theorem execSStart_completes (hbound : s.phase.busy = false → s.env.bound = true) : ∃ t, exec .sStart s = .next t := by
  cases hb : s.phase.busy with
  | true => exact ⟨s, execSStart_busy hb⟩
  | false => exact ⟨_, execSStart_starts hb (hbound hb)⟩

theorem ctrlAction_completes {value : Word32}
    (hstart : value.getLsbD 0 = true → value.getLsbD 1 = false → s.phase.busy = false → s.env.bound = true) :
    ∃ t, (ctrlAction value s).outcome = .next t := by
  unfold ctrlAction
  split
  · exact ⟨_, rfl⟩
  · rename_i h1
    split
    · rename_i h0; exact execSStart_completes (hstart h0 (by simpa using h1))
    · exact ⟨_, rfl⟩

/-- A move other than waiting answers where the host's two duties are kept. -/
theorem hostAction_completes {m : HostMove} (hm : m ≠ .wait) (hbind : ∀ bytes, m = .bind bytes → s.phase.busy = false)
    (hstart : ∀ value, m = .write 0 value → value.getLsbD 0 = true → value.getLsbD 1 = false →
      s.phase.busy = false → s.env.bound = true) : ∃ t, (hostAction m s).outcome = .next t := by
  cases m with
  | wait => exact absurd rfl hm
  | write reg value =>
    rw [hostAction]
    split
    · rename_i hreg; exact ctrlAction_completes (hstart value (hreg ▸ rfl))
    · exact ⟨_, rfl⟩
  | hardReset => exact ⟨_, rfl⟩
  | bind bytes => rw [hostAction, if_neg (ne_true_of_eq_false (hbind bytes rfl))]; exact ⟨_, rfl⟩

end

/-- Settles O55: the block's own step answers from every state of the invariant, and a dutiful host's move is never refused. -/
theorem stepAlwaysAnswers : Obligations.StepAlwaysAnswers := by
  unfold Obligations.StepAlwaysAnswers
  intro s h ⟨hbind, hstart⟩
  rcases blockMoves_or_hostMove s with hm | ⟨m, hm, hhead⟩
  · rw [step_of_blockMoves hm]
    exact blockAction_completes (inv_popMove h)
  · rw [step_of_hostMove hhead]
    rw [hhead] at hbind hstart
    exact hostAction_completes hm (fun bytes he => hbind bytes (congrArg some he))
      (fun value he => hstart value (congrArg some he))

section
variable {s t : State}

/-! ## The bound on the steps of a decode (R85)

Each step of the front consumes at least 12 bytes of the stream or ends a phase, and each row moves Y on. So `frontSteps`
less Y falls with every step of a running block, and at the end it is no less than -HEIGHT. -/

/-- At most this many steps remain before the first row: the signature, a chunk for each 12 bytes left, the end of the
stream, S_INFLATE. -/
def frontSteps (s : State) : Nat :=
  match s.phase with
  | .sig => 3 + (s.inLen - 8) / 12
  | .chunks => 2 + (s.inLen - s.cur) / 12
  | .inflate => 1
  | .idle | .defilter | .done | .fault => 0

theorem frontSteps_sig (h : s.phase = .sig) : frontSteps s = 3 + (s.inLen - 8) / 12 := by rw [frontSteps, h]
theorem frontSteps_chunks (h : s.phase = .chunks) : frontSteps s = 2 + (s.inLen - s.cur) / 12 := by rw [frontSteps, h]
theorem frontSteps_inflate (h : s.phase = .inflate) : frontSteps s = 1 := by rw [frontSteps, h]
theorem frontSteps_defilter (h : s.phase = .defilter) : frontSteps s = 0 := by rw [frontSteps, h]
theorem frontSteps_done (h : s.phase = .done) : frontSteps s = 0 := by rw [frontSteps, h]
theorem frontSteps_fault (h : s.phase = .fault) : frontSteps s = 0 := by rw [frontSteps, h]

/-- One step nearer the end of the decode. -/
def Nearer (s t : State) : Prop := frontSteps t + s.y.toNat + 1 ≤ frontSteps s + t.y.toNat

/-- Before the first row Y is 0. -/
theorem y_eq_zero_of_sig (h : State.Inv s) (hp : s.phase = .sig) : s.y = 0#32 := by
  rw [eq_startDecode_of_inv h hp, startDecode_y]

theorem nearer_of_frontSteps_lt (hy : s.y = 0#32) (hlt : frontSteps t < frontSteps s) : Nearer s t := by
  have hzero : s.y.toNat = 0 := by rw [hy]; rfl
  unfold Nearer
  omega

theorem execSig_nearer {magic : Word64} (h : State.Inv s) (hs : execSig magic s = .next t) : Nearer s t := by
  obtain ⟨hp, hres⟩ := execSig_next hs
  have hcur : s.cur = 0 := by rw [eq_startDecode_of_inv h hp, startDecode_cur]
  refine nearer_of_frontSteps_lt (y_eq_zero_of_sig h hp) ?_
  rw [frontSteps_sig hp]
  rcases hres with ⟨-, rfl⟩ | ⟨-, ⟨-, rfl⟩ | ⟨-, rfl⟩⟩
  · rw [frontSteps_fault rfl]; omega
  · rw [frontSteps_chunks rfl]
    show 2 + (s.inLen - (s.cur + 8)) / 12 < _
    rw [hcur]
    omega
  · rw [frontSteps_fault rfl]; omega

theorem shortSignature_nearer (h : State.Inv s) (hp : s.phase = .sig) : Nearer s (shortSignature s) := by
  refine nearer_of_frontSteps_lt (y_eq_zero_of_sig h hp) ?_
  rw [frontSteps_sig hp, frontSteps_fault rfl]
  omega

/-- A chunk that completes has passed LEN, TYPE and the checksum, 12 bytes at least; any other ends the loop. -/
theorem chunkStep_nearer {op : State → OpResult} (h : State.Inv s) (hop : ChunkOp op)
    (hs : chunkStep op s = .next t) : Nearer s t := by
  obtain ⟨hp, hres⟩ := chunkStep_next hs
  have hparse := parsing_of_inv h hp
  refine nearer_of_frontSteps_lt hparse.errorSafe.y_eq ?_
  rw [frontSteps_chunks hp]
  rcases hres with ⟨-, rfl⟩ | ⟨hle, ⟨e, u, -, rfl⟩ | ⟨u, hu, ⟨-, rfl⟩ | ⟨hle', rfl⟩⟩⟩
  · rw [frontSteps_inflate rfl]; omega
  · rw [frontSteps_fault rfl]; omega
  · rw [frontSteps_fault rfl]; omega
  · have hbehind : Parsing (s.cur + 8) { s with cur := s.cur + 8 } :=
      { hparse.advance hle with start_le := Nat.le_refl _ }
    have hdone := hop.parsing.done hbehind hu
    have hcur : s.cur + 8 ≤ u.cur := hdone.start_le
    have hlen : u.inLen = s.inLen := congrArg (fun env => env.input.length) (hop.env.done hu)
    rw [frontSteps_chunks (s := { u with cur := u.cur + 4 }) hdone.phase_eq]
    show 2 + (u.inLen - (u.cur + 4)) / 12 < _
    omega

theorem shortChunk_nearer (h : State.Inv s) (hp : s.phase = .chunks) : Nearer s (shortChunk s) := by
  refine nearer_of_frontSteps_lt (parsing_of_inv h hp).errorSafe.y_eq ?_
  rw [frontSteps_chunks hp, frontSteps_inflate rfl]
  omega

theorem execSInflate_nearer (h : State.Inv s) (hs : execSInflate s = .next t) : Nearer s t := by
  obtain ⟨hp, ht⟩ := execSInflate_phase hs
  refine nearer_of_frontSteps_lt (errorSafe_of_parseOk h.1 (parseOk_of_inflate h hp)).y_eq ?_
  have hfront : frontSteps t = 0 := ht.elim frontSteps_defilter frontSteps_fault
  rw [frontSteps_inflate hp, hfront]
  exact Nat.one_pos

theorem rowStep_nearer {predict : Predictor} (h : State.Inv s) (hs : rowStep predict s = .next t) : Nearer s t := by
  obtain ⟨hp, ht⟩ := rowStep_phase hs
  obtain ⟨-, rp, -, rfl⟩ := rowStep_next hs
  obtain ⟨-, -, -, hy, -⟩ := defilter_of_inv h hp
  have hfront : frontSteps (finishRow rp s) = 0 := ht.elim frontSteps_defilter frontSteps_done
  rw [Nearer, hfront, frontSteps_defilter hp, finishRow_y, y_succ_toNat hy, Nat.zero_add, Nat.zero_add]

/-- Every step of a running block brings the decode nearer its end. -/
theorem blockAction_nearer (h : State.Inv s) (hb : s.phase.busy = true) (hs : (blockAction s).outcome = .next t) :
    Nearer s t := by
  rcases blockAction_next hs with ⟨hb', -⟩ | ⟨i, hi, hexec⟩ | ⟨hp, rfl⟩ | ⟨hp, rfl⟩
  · exact absurd (hb'.symm.trans hb) Bool.false_ne_true
  · rcases exec_families hi hexec with ⟨magic, hx⟩ | ⟨op, hop, hx⟩ | ⟨predict, u, rfl | rfl, hx⟩ | hx
    · exact execSig_nearer h hx
    · exact chunkStep_nearer h hop hx
    · exact rowStep_nearer h hx
    · have hmark : Nearer (markUnknownFilter s) t := rowStep_nearer (inv_markUnknownFilter h (rowStep_phase hx).1) hx
      exact hmark
    · exact execSInflate_nearer h hx
  · exact shortSignature_nearer h hp
  · exact shortChunk_nearer h hp

/-! ## The run of a decode under a host that only waits -/

/-- The block's own step leaves the host's coming moves as they are. -/
theorem blockAction_host (hs : (blockAction s).outcome = .next t) : t.env.host = s.env.host := by
  rcases blockAction_next hs with ⟨-, rfl⟩ | ⟨i, -, hexec⟩ | ⟨-, rfl⟩ | ⟨-, rfl⟩
  · rfl
  · rcases instructionsLeaveTheHostsSide i s t hexec with henv | ⟨-, henv⟩ <;> rw [henv]
  · rfl
  · rfl

/-- A block that has started does not return to IDLE of its own. -/
theorem blockAction_ne_idle (hp : s.phase ≠ .idle) (hs : (blockAction s).outcome = .next t) : t.phase ≠ .idle := by
  rcases blockAction_phase hs with ⟨-, ht⟩ | ⟨-, ht⟩ | ⟨-, ht⟩ | ⟨-, ht⟩ | ⟨-, ht⟩
  · rwa [ht]
  · rcases ht with ht | ht <;> rw [ht] <;> exact Phase.noConfusion
  · rcases ht with ht | ht | ht <;> rw [ht] <;> exact Phase.noConfusion
  · rcases ht with ht | ht <;> rw [ht] <;> exact Phase.noConfusion
  · rcases ht with ht | ht <;> rw [ht] <;> exact Phase.noConfusion

/-- A decode under way, or one that has ended: the host only waits. -/
structure Decoding (s : State) : Prop where
  inv : State.Inv s
  host : s.env.host = []
  ne_idle : s.phase ≠ .idle

/-- DONE or FAULT. -/
def Ended (s : State) : Prop := s.phase = .done ∨ s.phase = .fault

theorem Decoding.busy_or_ended (h : Decoding s) : s.phase.busy = true ∨ Ended s := by
  have hne := h.ne_idle
  unfold Ended
  cases hp : s.phase with
  | idle => exact absurd hp hne
  | sig | chunks | inflate | defilter => exact Or.inl rfl
  | done => exact Or.inr (Or.inl rfl)
  | fault => exact Or.inr (Or.inr rfl)

/-- While BUSY the decode goes on, one step nearer its end. -/
theorem Decoding.goes_on (h : Decoding s) (hb : s.phase.busy = true) :
    ∃ t, step s = .next t ∧ Decoding t ∧ Nearer s t := by
  have hinv := inv_popMove h.inv
  obtain ⟨t, ht⟩ := blockAction_completes hinv
  have hm : BlockMoves s := Or.inl (by rw [h.host]; rfl)
  have hhost : t.env.host = [] := (blockAction_host ht).trans (congrArg List.tail h.host)
  exact ⟨t, (step_of_blockMoves hm).trans ht,
    ⟨blockAction_inv hinv ht, hhost, blockAction_ne_idle (s := popMove s) h.ne_idle ht⟩,
    blockAction_nearer (s := popMove s) hinv hb ht⟩

/-- At the end Y is HEIGHT (DONE) or 0 (FAULT). -/
theorem y_le_height_of_ended (h : State.Inv s) (he : Ended s) : s.y.toNat ≤ s.hdr.height.toNat := by
  obtain ⟨-, -, -, -, -, hphase⟩ := h
  rcases he with hp | hp <;> simp only [PhaseOk, hp] at hphase
  · obtain ⟨-, hy, -⟩ := hphase
    rw [hy]
  · obtain ⟨-, -, -, hy, -⟩ := hphase
    rw [hy]
    exact Nat.zero_le _

theorem run_succ {k : Nat} (hs : step s = .next t) : Host.Core.run core (k + 1) s = Host.Core.run core k t := by
  have hcore : core.step s = .next t := hs
  simp only [Host.Core.run, hcore]

/-- A decode ends within its steps in the front and its rows. `fuel` bounds the steps that `Nearer` can go on. -/
theorem Decoding.run_ends {fuel : Nat} (h : Decoding s) (hfuel : frontSteps s + 2 ^ 32 ≤ fuel + s.y.toNat) :
    ∃ k t, Host.Core.run core k s = .next t ∧ Ended t ∧ k + s.y.toNat ≤ frontSteps s + t.hdr.height.toNat := by
  induction fuel generalizing s with
  | zero => have := s.y.isLt; omega
  | succ fuel ih =>
    rcases h.busy_or_ended with hb | he
    · obtain ⟨u, hstep, hu, hnear⟩ := h.goes_on hb
      unfold Nearer at hnear
      obtain ⟨k, t, hrun, he, hk⟩ := ih hu (by omega)
      exact ⟨k + 1, t, (run_succ hstep).trans hrun, he, by omega⟩
    · have hy := y_le_height_of_ended h.inv he
      exact ⟨0, s, rfl, he, by omega⟩

end

/-- Settles O56: from PHASE SIG the steps in the front are the rule's bound less its rows. -/
theorem everyDecodeEnds : Obligations.EveryDecodeEnds := by
  unfold Obligations.EveryDecodeEnds
  intro s h hp hhost
  have hdecoding : Decoding s := ⟨h, hhost, by rw [hp]; exact Phase.noConfusion⟩
  obtain ⟨k, t, hrun, hended, hk⟩ := hdecoding.run_ends (Nat.le_add_right _ _)
  rw [frontSteps_sig hp] at hk
  exact ⟨k, t, hrun, hended, (Nat.le_add_right _ _).trans hk⟩

end Sys2Proof.Machine

/-! PROOF. The five chunk operations (41_chunk_ops.md R86 to R92): what each answers in each of its cases, what S_CHUNK makes
of a completed and of a refused operation, and a payload split into two chunks. -/

namespace Sys2Proof.Machine

section
variable {s t : State} {op : State → OpResult} {len : Word32} {n : Nat}

/-! ## The errors of the operations, in the order of R127 -/

theorem withPayload_of_gt {k : List Byte → State → OpResult} (hlt : s.inLen < s.cur + n) :
    withPayload n s k = .raised .truncatedPayload (drainInput s) := by
  simp only [withPayload, streamRead_of_gt hlt]

theorem opIhdr_duplicate (hv : s.flags.hdrValid = true) : opIhdr len s = .raised .duplicateHeader s := if_pos hv

theorem opIhdr_badLength (hv : s.flags.hdrValid = false) (hl : len ≠ 13#32) :
    opIhdr len s = .raised .invalidChunkLength s := by
  rw [opIhdr, if_neg (ne_true_of_eq_false hv), if_pos hl]

theorem opIhdr_short (hv : s.flags.hdrValid = false) (hlt : s.inLen < s.cur + 13) :
    opIhdr 13#32 s = .raised .truncatedPayload (drainInput s) := by
  rw [opIhdr, if_neg (ne_true_of_eq_false hv), if_neg (not_not_intro rfl), withPayload_of_gt hlt]

theorem opIhdr_zeroDimension {p : List Byte} (hv : s.flags.hdrValid = false) (hle : s.cur + 13 ≤ s.inLen)
    (hp : Memory.readBytes s.env.input s.cur 13 = some p)
    (hz : (headerOf p).width = 0#32 ∨ (headerOf p).height = 0#32) :
    opIhdr 13#32 s = .raised .invalidDimensions { s with cur := s.cur + 13 } := by
  rw [opIhdr, if_neg (ne_true_of_eq_false hv), if_neg (not_not_intro rfl), withPayload_of_le hle hp, if_pos hz]

theorem opIdat_noHeader (hv : s.flags.hdrValid = false) : opIdat len s = .raised .missingHeader s := if_pos hv

theorem opIdat_overCapacity {cap : Nat} (hv : s.flags.hdrValid = true) (hcap : s.env.cpCap = some cap)
    (hlt : cap < s.cpLen + len.toNat) : opIdat len s = .raised .payloadCapacity s := by
  have hexceeds : exceeds (s.cpLen + len.toNat) s.env.cpCap = true := by rw [hcap]; exact decide_eq_true hlt
  rw [opIdat, if_neg (ne_false_of_eq_true hv), if_pos hexceeds]

theorem opIdat_short (hv : s.flags.hdrValid = true)
    (hcap : ∀ cap, s.env.cpCap = some cap → s.cpLen + len.toNat ≤ cap) (hlt : s.inLen < s.cur + len.toNat) :
    opIdat len s = .raised .truncatedPayload (drainInput s) := by
  rw [opIdat, if_neg (ne_false_of_eq_true hv), if_neg (ne_true_of_eq_false (exceeds_eq_false_iff.2 hcap)),
    withPayload_of_gt hlt]

theorem opIend_badLength (hl : len ≠ 0#32) : opIend len s = .raised .invalidChunkLength s := if_pos hl

theorem opOther_short (hlt : s.inLen < s.cur + len.toNat) : opOther len s = .raised .truncatedPayload (drainInput s) :=
  withPayload_of_gt hlt

/-! ## The frame around an operation that answers (R78, R83) -/

/-- An operation that is done, with the four checksum bytes there: the chunk leaves the operation's state, the cursor behind
the checksum. -/
theorem chunkStep_of_done {cur : Nat} (hr : ChunkReady s n) (hop : op { s with cur := s.cur + 8 } = .done t)
    (henv : t.env = s.env) (hcur : cur = t.cur + 4) (hle : cur ≤ s.inLen) :
    chunkStep op s = .next { t with cur := cur } := by
  obtain ⟨hp, hin, hlen⟩ := hr
  have hinLen : t.inLen = s.inLen := by rw [State.inLen, henv]; rfl
  have hread : t.cur + 4 ≤ t.inLen := by omega
  obtain ⟨b, hb⟩ := Memory.readBytes_of_dense (m := t.env.input) (henv ▸ hin) (hinLen ▸ hread)
  rw [chunkStep_run hp hin (by omega), hop, hcur]
  simp only [finishChunk, skipChecksum, streamRead_of_le hread hb]

/-- An error of the operation is taken at the chunk's offset, in the state the operation left. -/
theorem chunkStep_of_raised {e : DecodeError} (hr : ChunkReady s n)
    (hop : op { s with cur := s.cur + 8 } = .raised e t) :
    Raises (chunkStep op s) e.kindCode e.subCode s.cur t := by
  obtain ⟨hp, hin, hlen⟩ := hr
  rw [chunkStep_run hp hin (by omega), hop]
  exact raises_raise e s.cur t

/-! ## A completed IDAT (R88, R92) -/

/-- An IDAT that leaves the chunk loop running has appended its payload: every error leaves PHASE FAULT, a short LEN or TYPE
leaves PHASE INFLATE. -/
theorem execIdat_completed {p : List Byte} (hs : exec (.idat len) s = .next t) (hp : t.phase = .chunks)
    (hread : Memory.readBytes s.env.input (s.cur + 8) len.toNat = some p) :
    t = appendPayload len.toNat p { s with cur := s.cur + 12 + len.toNat } := by
  obtain ⟨-, ⟨-, rfl⟩ | ⟨-, ⟨e, u, -, rfl⟩ | ⟨u, hop, ⟨-, rfl⟩ | ⟨-, rfl⟩⟩⟩⟩ := chunkStep_next hs
  · cases hp
  · cases hp
  · cases hp
  · obtain ⟨-, -, p', hread', -, rfl⟩ := opIdat_done hop
    obtain rfl : p = p' := Option.some.inj (hread.symm.trans hread')
    have hcur : s.cur + 8 + len.toNat + 4 = s.cur + 12 + len.toNat := by omega
    simp only [appendPayload, hcur]

end

/-! ## O27 to O33 and O36 -/

/-- Settles O27: the operation is done on the thirteen bytes, whose fields `headerOf` reads. -/
theorem ihdrLatchesTheHeader : Obligations.IhdrLatchesTheHeader := by
  unfold Obligations.IhdrLatchesTheHeader
  intro s w0 w1 w2 w3 h0 h1 h2 h3 depth color m0 m1 m2 hr hv hread hw hh
  obtain ⟨-, -, hlen⟩ := id hr
  have hle : s.cur + 8 + 13 ≤ s.inLen := by omega
  have hop := opIhdr_of_le (s := { s with cur := s.cur + 8 }) hv hle hread hw hh
  exact chunkStep_of_done hr hop rfl rfl hlen

/-- Settles O28: one error of the operation for each clause, taken by the frame. -/
theorem ihdrErrors : Obligations.IhdrErrors := by
  unfold Obligations.IhdrErrors
  intro s len hr
  refine ⟨fun hv => ?duplicate, fun hv hl => ?length, fun hv hl hlt => ?payload, ?dimensions⟩
  case duplicate => exact chunkStep_of_raised hr (opIhdr_duplicate hv)
  case length => exact chunkStep_of_raised hr (opIhdr_badLength hv hl)
  case payload =>
    subst hl
    exact chunkStep_of_raised hr (opIhdr_short (s := { s with cur := s.cur + 8 }) hv hlt)
  case dimensions =>
    intro w0 w1 w2 w3 h0 h1 h2 h3 depth color m0 m1 m2 hv hl hle hread hz
    subst hl
    exact chunkStep_of_raised hr (opIhdr_zeroDimension (s := { s with cur := s.cur + 8 }) hv hle hread hz)

/-- Settles O29: CP afterwards is the payload written at CP_LEN, read back by the laws of `Memory.writeBytes`. -/
theorem idatAppendsThePayload : Obligations.IdatAppendsThePayload := by
  unfold Obligations.IdatAppendsThePayload
  intro s len p hr hv hcap hread
  obtain ⟨-, -, hlen⟩ := id hr
  have hle : s.cur + 8 + len.toNat ≤ s.inLen := by omega
  have hop := opIdat_of_le (s := { s with cur := s.cur + 8 }) hv hcap hle hread
  have hcur : s.cur + 12 + len.toNat = s.cur + 8 + len.toNat + 4 := by omega
  have hplen := Memory.readBytes_length hread
  refine ⟨Memory.writeBytes s.cp s.cpLen p, chunkStep_of_done hr hop rfl hcur (by omega), fun k hk => ?_, ?_⟩
  · exact Memory.read_writeBytes_inside _ _ _ _ (by omega)
  · rintro a (hbelow | habove)
    · exact Memory.read_writeBytes_below _ _ _ _ hbelow
    · exact Memory.read_writeBytes_above _ _ _ _ (by omega)

/-- Settles O30: one error of the operation for each clause, taken by the frame. -/
theorem idatErrors : Obligations.IdatErrors := by
  unfold Obligations.IdatErrors
  intro s len hr
  refine ⟨fun hv => ?header, fun cap hv hcap hlt => ?capacity, fun hv hcap hlt => ?payload⟩
  case header => exact chunkStep_of_raised hr (opIdat_noHeader hv)
  case capacity => exact chunkStep_of_raised hr (opIdat_overCapacity hv hcap hlt)
  case payload => exact chunkStep_of_raised hr (opIdat_short (s := { s with cur := s.cur + 8 }) hv hcap hlt)

/-- Settles O31: on length 0 the operation is done and the checksum follows TYPE; on any other it raises. -/
theorem iendMarksTheEnd : Obligations.IendMarksTheEnd := by
  unfold Obligations.IendMarksTheEnd
  intro s len
  refine ⟨fun hr hl => ?_, fun hr hl => chunkStep_of_raised hr (opIend_badLength hl)⟩
  subst hl
  obtain ⟨-, -, hlen⟩ := id hr
  exact chunkStep_of_done hr (opIend_zero _) rfl rfl hlen

/-- Settles O32: the operation raises before it reads anything. -/
theorem plteIsRefused : Obligations.PlteIsRefused := by
  unfold Obligations.PlteIsRefused
  intro s len hr
  exact chunkStep_of_raised (e := .paletteChunk) hr rfl

/-- Settles O33: the operation only reads its payload, and a short read is its one error. -/
theorem otherIsSkipped : Obligations.OtherIsSkipped := by
  unfold Obligations.OtherIsSkipped
  intro s len tag
  refine ⟨fun hr => ?_, fun hr hlt => ?_⟩
  · obtain ⟨-, hin, hlen⟩ := id hr
    have hle : s.cur + 8 + len.toNat ≤ s.inLen := by omega
    have hop := opOther_of_le (s := { s with cur := s.cur + 8 }) hin hle
    have hcur : s.cur + 12 + len.toNat = s.cur + 8 + len.toNat + 4 := by omega
    exact chunkStep_of_done (t := { s with cur := s.cur + 8 + len.toNat }) hr hop rfl hcur (by omega)
  · exact chunkStep_of_raised hr (opOther_short (s := { s with cur := s.cur + 8 }) hlt)

/-- Settles O36: each of the three IDATs has appended its payload, and writing `p` and then `q` behind it is writing
`p ++ q`. -/
theorem splitIdatGivesTheSamePayload : Obligations.SplitIdatGivesTheSamePayload := by
  unfold Obligations.SplitIdatGivesTheSamePayload
  intro s one first two input len len1 len2 p q hlen hreadOne hreadFirst hreadTwo hone honeP hfirst hfirstP htwo htwoP
  obtain rfl := execIdat_completed hone honeP hreadOne
  obtain rfl := execIdat_completed hfirst hfirstP hreadFirst
  obtain rfl := execIdat_completed htwo htwoP hreadTwo
  have hplen : p.length = len1.toNat := Memory.readBytes_length hreadFirst
  constructor
  · show Memory.writeBytes (Memory.writeBytes s.cp s.cpLen p) (s.cpLen + len1.toNat) q =
      Memory.writeBytes s.cp s.cpLen (p ++ q)
    rw [Memory.writeBytes_append, hplen]
  · show s.cpLen + len1.toNat + len2.toNat = s.cpLen + len.toNat
    omega

end Sys2Proof.Machine

/-! PROOF. The inflate adapter (42_inflate_adapter.md R93 to R99): each check of S_INFLATE in its order, the call of the
service, and each answer of the service. -/

namespace Sys2Proof.Machine

/-! ## The colour mode (R95) -/

theorem bppOf_of_supported {mode : Byte} {bpp : BitVec 3}
    (h : mode = 6#8 ∧ bpp = 4#3 ∨ mode = 2#8 ∧ bpp = 3#3) : bppOf mode = some bpp := by
  rcases h with ⟨rfl, rfl⟩ | ⟨rfl, rfl⟩ <;> rfl

theorem bppOf_of_unsupported {mode : Byte} (h6 : mode ≠ 6#8) (h2 : mode ≠ 2#8) : bppOf mode = none := by
  rw [bppOf, if_neg h6, if_neg h2]

/-! ## An outcome that is a raised error (R130) -/

theorem raises_of_eq_raise {o : StepOutcome} {e : DecodeError} {pos : Nat} {s : State}
    (h : o = .next (raise e pos s)) : Raises o e.kindCode e.subCode pos s :=
  h ▸ raises_raise e pos s

/-! ## FS after the answer (R99) -/

theorem Memory.read_writeBytes_nil (bs : List Byte) (a : Nat) :
    Memory.read (Memory.writeBytes [] 0 bs) a = bs[a]? := by
  rcases Nat.lt_or_ge a bs.length with hlt | hge
  · simpa only [Nat.zero_add] using Memory.read_writeBytes_inside [] 0 bs a hlt
  · rw [Memory.read_writeBytes_above [] 0 bs a (by omega), List.getElem?_eq_none hge]
    rfl

section
variable {s : State} {bpp : BitVec 3} {answer : List Byte}

theorem takeAnswer_of_length_eq (hlen : answer.length = s.geo.expLen) :
    takeAnswer (.ok answer) s = fillScanlines answer s := if_neg (not_not_intro hlen)

theorem takeAnswer_of_length_ne (hlen : answer.length ≠ s.geo.expLen) :
    takeAnswer (.ok answer) s = raise .lengthMismatch s.cur s := if_pos hlen

theorem callService_of_read {compressed : List Byte} (hread : Memory.readBytes s.cp 0 s.cpLen = some compressed) :
    callService s = .next (takeAnswer (askService s.env compressed s.geo.expLen) (afterInflate s)) := by
  simp only [callService, hread]

/-! ## The checks before the call, in the order of R93 -/

theorem execSInflate_noHeader (hp : s.phase = .inflate) (hv : s.flags.hdrValid = false) :
    execSInflate s = .next (raise .missingHeader s.cur s) := by
  rw [execSInflate, if_pos hp, if_pos hv]

theorem execSInflate_badDepth (hp : s.phase = .inflate) (hv : s.flags.hdrValid = true) (hdepth : s.hdr.bitDepth ≠ 8#8) :
    execSInflate s = .next (raise .bitDepth s.cur s) := by
  rw [execSInflate, if_pos hp, if_neg (ne_false_of_eq_true hv), if_pos hdepth]

theorem execSInflate_badColor (hp : s.phase = .inflate) (hv : s.flags.hdrValid = true) (hdepth : s.hdr.bitDepth = 8#8)
    (hbpp : bppOf s.hdr.colorMode = none) : execSInflate s = .next (raise .colorMode s.cur s) := by
  rw [execSInflate, if_pos hp, if_neg (ne_false_of_eq_true hv), if_neg (not_not_intro hdepth), hbpp]

/-- With a supported header only the capacity stands before the call. -/
theorem execSInflate_supported (hp : s.phase = .inflate) (hv : s.flags.hdrValid = true) (hdepth : s.hdr.bitDepth = 8#8)
    (hbpp : bppOf s.hdr.colorMode = some bpp) :
    execSInflate s =
      if exceeds (setGeometry bpp s).geo.expLen s.env.fsCap = true then
        .next (raise .scanlineCapacity s.cur (setGeometry bpp s))
      else callService (setGeometry bpp s) := by
  rw [execSInflate, if_pos hp, if_neg (ne_false_of_eq_true hv), if_neg (not_not_intro hdepth), hbpp]

theorem execSInflate_overCapacity {cap : Nat} (hp : s.phase = .inflate) (hv : s.flags.hdrValid = true)
    (hdepth : s.hdr.bitDepth = 8#8) (hbpp : bppOf s.hdr.colorMode = some bpp) (hcap : s.env.fsCap = some cap)
    (hlt : cap < (setGeometry bpp s).geo.expLen) :
    execSInflate s = .next (raise .scanlineCapacity s.cur (setGeometry bpp s)) := by
  have hexceeds : exceeds (setGeometry bpp s).geo.expLen s.env.fsCap = true := by rw [hcap]; exact decide_eq_true hlt
  rw [execSInflate_supported hp hv hdepth hbpp, if_pos hexceeds]

/-- All checks passed, the service is called on the whole of CP and its answer is taken (R98, R99). -/
theorem execSInflate_calls {compressed : List Byte} {r : InflateAnswer} (hp : s.phase = .inflate)
    (hv : s.flags.hdrValid = true) (hdepth : s.hdr.bitDepth = 8#8) (hbpp : bppOf s.hdr.colorMode = some bpp)
    (hcap : ∀ cap, s.env.fsCap = some cap → (setGeometry bpp s).geo.expLen ≤ cap)
    (hread : Memory.readBytes s.cp 0 s.cpLen = some compressed)
    (hask : askService s.env compressed (setGeometry bpp s).geo.expLen = r) :
    execSInflate s = .next (takeAnswer r (afterInflate (setGeometry bpp s))) := by
  rw [execSInflate_supported hp hv hdepth hbpp, if_neg (ne_true_of_eq_false (exceeds_eq_false_iff.2 hcap)),
    callService_of_read (s := setGeometry bpp s) hread, setGeometry_env, hask]

end

/-! ## O37 to O39 -/

/-- Settles O37: the answer fits, so it is written to the empty FS from address 0 on. -/
theorem sInflateFillsTheScanlines : Obligations.SInflateFillsTheScanlines := by
  unfold Obligations.SInflateFillsTheScanlines
  intro s bpp compressed answer hp hv hdepth hmode hfs hcap hread hask hlen
  have hcall := execSInflate_calls hp hv hdepth (bppOf_of_supported hmode) hcap hread hask
  rw [takeAnswer_of_length_eq hlen] at hcall
  refine ⟨Memory.released, Memory.writeBytes s.fs 0 answer, hcall, fun a => ?_⟩
  rw [hfs]
  exact Memory.read_writeBytes_nil answer a

/-- Settles O38: one check for each clause, the last one with the geometry written. -/
theorem sInflateChecks : Obligations.SInflateChecks := by
  unfold Obligations.SInflateChecks
  intro s hp
  refine ⟨fun hv => ?header, fun hv hdepth => ?depth, fun hv hdepth h6 h2 => ?color,
    fun bpp cap hv hdepth hmode hcap hlt => ?capacity⟩
  case header => exact raises_of_eq_raise (execSInflate_noHeader hp hv)
  case depth => exact raises_of_eq_raise (execSInflate_badDepth hp hv hdepth)
  case color => exact raises_of_eq_raise (execSInflate_badColor hp hv hdepth (bppOf_of_unsupported h6 h2))
  case capacity =>
    exact raises_of_eq_raise (s := setGeometry bpp s)
      (execSInflate_overCapacity hp hv hdepth (bppOf_of_supported hmode) hcap hlt)

/-- Settles O39: the call returns in both clauses, and `takeAnswer` raises on what it returns. CP, which the return has
released, is a buffer that the error releases too. -/
theorem sInflateAnswerErrors : Obligations.SInflateAnswerErrors := by
  unfold Obligations.SInflateAnswerErrors
  intro s bpp compressed hp hv hdepth hmode hcap hread
  have hcalls {r : InflateAnswer} := execSInflate_calls (r := r) hp hv hdepth (bppOf_of_supported hmode) hcap hread
  refine ⟨fun hask => ?failure, fun answer hask hlen => ?mismatch⟩
  case failure => exact ⟨_, hcalls hask, _, _, _, rfl⟩
  case mismatch =>
    have hcall := hcalls hask
    rw [takeAnswer_of_length_ne hlen] at hcall
    exact ⟨_, hcall, _, _, _, rfl⟩

end Sys2Proof.Machine

/-! PROOF. Unit SDF (43_defilter.md R100 to R117): what each row instruction runs, what the predictors are on bytes and at
the edges, on what a row depends, and that reconstruction undoes the forward filter. -/

namespace Sys2Proof.Machine

/-! ## The instructions of a row (R105 to R110) -/

/-- Every row instruction is one row step, UNKNOWN's from a state in which UNKFILT is set. -/
theorem exec_row {i : Instr} (hi : i.format = .row) :
    ∃ predict, (∀ s, exec i s = rowStep predict s) ∨ ∀ s, exec i s = rowStep predict (markUnknownFilter s) := by
  cases i with
  | none => exact ⟨predictNone, Or.inl fun _ => rfl⟩
  | sub => exact ⟨predictSub, Or.inl fun _ => rfl⟩
  | up => exact ⟨predictUp, Or.inl fun _ => rfl⟩
  | average => exact ⟨predictAverage, Or.inl fun _ => rfl⟩
  | paeth => exact ⟨predictPaeth, Or.inl fun _ => rfl⟩
  | unknown ftype => exact ⟨predictUnknown, Or.inr fun _ => rfl⟩
  | _ => cases hi

/-- The instruction of a filter type 0 to 4 runs the predictor of that type (R70, R100). -/
theorem exec_rowInstr {f : Byte} (hf : f.toNat ≤ 4) (s : State) : exec (rowInstr f) s = rowStep (predictorOf f) s := by
  obtain rfl | rfl | rfl | rfl | rfl | hunknown := ftype_cases f
  · rfl
  · rfl
  · rfl
  · rfl
  · rfl
  · exact absurd (wellFormed_unknown_iff.1 hunknown) (Nat.not_lt.2 hf)

theorem RowOutcome.congr_recon {s : State} {unk : Bool} {recon recon' : Memory → Nat → Byte} {o : StepOutcome}
    (h : RowOutcome s unk recon o) (hrecon : ∀ rp x, recon rp x = recon' rp x) : RowOutcome s unk recon' o := by
  rwa [show recon' = recon from funext₂ fun rp x => (hrecon rp x).symm]

/-! ## The predictors on bytes (R112, R113) -/

/-- How far `v` is from left + above - upperLeft, on the integers (R112). -/
def paethDistance (left above upperLeft v : Byte) : Nat :=
  ((left.toNat : Int) + above.toNat - upperLeft.toNat - v.toNat).natAbs

theorem predictPaeth_eq (a b c : Byte) :
    predictPaeth a b c =
      if paethDistance a b c a ≤ paethDistance a b c b ∧ paethDistance a b c a ≤ paethDistance a b c c then a
      else if paethDistance a b c b ≤ paethDistance a b c c then b else c := rfl

/-- The predictor is left where left is at the least distance, else above where above is, else upperLeft (R112). -/
theorem predictPaeth_cases (a b c : Byte) :
    (predictPaeth a b c = a ∧ paethDistance a b c a ≤ paethDistance a b c b ∧
        paethDistance a b c a ≤ paethDistance a b c c) ∨
      (predictPaeth a b c = b ∧ paethDistance a b c b < paethDistance a b c a ∧
        paethDistance a b c b ≤ paethDistance a b c c) ∨
      (predictPaeth a b c = c ∧ paethDistance a b c c < paethDistance a b c a ∧
        paethDistance a b c c < paethDistance a b c b) := by
  rw [predictPaeth_eq]
  split
  · rename_i hleft; exact Or.inl ⟨rfl, hleft⟩
  · split
    · exact Or.inr (Or.inl ⟨rfl, by omega, by assumption⟩)
    · exact Or.inr (Or.inr ⟨rfl, by omega, by omega⟩)

theorem predictPaeth_left_only (l : Byte) : predictPaeth l 0#8 0#8 = l := by
  have hself : paethDistance l 0#8 0#8 l = 0 := by simp [paethDistance]
  rw [predictPaeth_eq, hself]
  exact if_pos ⟨Nat.zero_le _, Nat.zero_le _⟩

/-- Left and upperLeft, both 0, are at the distance of above from 0: left wins only where above is 0 itself. -/
theorem predictPaeth_above_only (a : Byte) : predictPaeth 0#8 a 0#8 = a := by
  have hself : paethDistance 0#8 a 0#8 a = 0 := by simp [paethDistance]
  have hzero : paethDistance 0#8 a 0#8 0#8 = a.toNat := by simp [paethDistance]
  rw [predictPaeth_eq, hself, hzero, if_pos (Nat.zero_le _)]
  split
  · rename_i hleft
    exact (BitVec.eq_of_toNat_eq (Nat.le_zero.1 hleft.1)).symm
  · rfl

/-- Half the sum of two bytes is a byte, so nothing is lost when it is stored in one (R113). -/
theorem predictAverage_toNat (l a u : Byte) : (predictAverage l a u).toNat = (l.toNat + a.toNat) / 2 := by
  have hl := l.isLt
  have ha := a.isLt
  rw [predictAverage, BitVec.toNat_ofNat]
  omega

theorem predictorOf_zero (f : Byte) : predictorOf f 0#8 0#8 0#8 = 0#8 := by
  unfold predictorOf
  split_ifs <;> rfl

/-! ## On what a row depends (R115, R116) -/

section
variable {p q : Predictor} {s t : State}

/-- Two row loops that write the same addresses and compute the same bytes are the same. -/
theorem rowLoop_congr (haddr : ∀ x, outAddr t x = outAddr s x)
    (hbyte : ∀ rp x, x < s.geo.stride → reconByte q t rp x = reconByte p s rp x) {n x : Nat}
    (hn : x + n ≤ s.geo.stride) (rp : Memory) : rowLoop q t n x rp = rowLoop p s n x rp := by
  induction n generalizing x rp with
  | zero => rfl
  | succ n ih =>
    rw [rowLoop, rowLoop, hbyte rp x (by omega), haddr]
    cases reconByte p s rp x with
    | error f => rfl
    | ok v => exact ih (by omega) _

/-- In row 0 above and upperLeft are 0 (R103), so a predictor counts only through its values there. -/
theorem reconByte_congr_of_row_zero (hy : s.y = 0#32) (hpq : ∀ l, q l 0#8 0#8 = p l 0#8 0#8) (rp : Memory) (x : Nat) :
    reconByte q s rp x = reconByte p s rp x := by
  have habove : aboveOf s rp x = .ok 0#8 := by simp [aboveOf, neighbour, hy]
  have hupperLeft : upperLeftOf s rp x = .ok 0#8 := by simp [upperLeftOf, neighbour, hy]
  simp only [reconByte, habove, hupperLeft]
  cases fetchByte .fs s.fs (rowBase s + 1 + x) with
  | error f => rfl
  | ok raw =>
    cases leftOf s rp x with
    | error f => rfl
    | ok left => exact congrArg (fun v => Except.ok (raw + v)) (hpq left)

theorem rowStep_congr_of_row_zero (hy : s.y = 0#32) (hpq : ∀ l, q l 0#8 0#8 = p l 0#8 0#8) :
    rowStep q s = rowStep p s := by
  have hloop : rowLoop q s s.geo.stride 0 s.rp = rowLoop p s s.geo.stride 0 s.rp :=
    rowLoop_congr (fun _ => rfl) (fun rp x _ => reconByte_congr_of_row_zero hy hpq rp x) (Nat.zero_add _).le s.rp
  rw [rowStep, rowStep, hloop]

/-- The converse of `rowStep_next`. -/
theorem rowStep_of_loop {rp : Memory} (hp : s.phase = .defilter) (hrp : rowLoop p s s.geo.stride 0 s.rp = .ok rp) :
    rowStep p s = .next (finishRow rp s) := by
  rw [rowStep, if_pos hp, hrp]

/-- Another FS that has the rows up to Y the same. -/
def SameRowsOfFs (fs : Memory) (s : State) : Prop :=
  ∀ a, a < (s.y.toNat + 1) * (s.geo.stride + 1) → Memory.read fs a = Memory.read s.fs a

/-- Of FS a row reads its own data bytes. -/
theorem reconByte_withFs {fs : Memory} (hfs : SameRowsOfFs fs s) {x : Nat} (hx : x < s.geo.stride) (rp : Memory) :
    reconByte p { s with fs := fs } rp x = reconByte p s rp x := by
  have haddr : rowBase s + 1 + x < (s.y.toNat + 1) * (s.geo.stride + 1) := by
    rw [rowBase, Nat.succ_mul]
    omega
  have hraw : fetchByte .fs fs (rowBase s + 1 + x) = fetchByte .fs s.fs (rowBase s + 1 + x) := by
    rw [fetchByte, fetchByte, hfs _ haddr]
  unfold reconByte
  rw [← hraw]
  rfl

theorem rowStep_withFs {fs : Memory} (hfs : SameRowsOfFs fs s) (hs : rowStep p s = .next t) :
    ∃ t', rowStep p { s with fs := fs } = .next t' ∧ t'.rp = t.rp ∧ t'.flags = t.flags := by
  obtain ⟨hp, rp, hrp, rfl⟩ := rowStep_next hs
  have hloop : rowLoop p { s with fs := fs } s.geo.stride 0 s.rp = rowLoop p s s.geo.stride 0 s.rp :=
    rowLoop_congr (s := s) (t := { s with fs := fs }) (fun _ => rfl) (fun rp _ hx => reconByte_withFs hfs hx rp)
      (Nat.zero_add _).le s.rp
  refine ⟨_, rowStep_of_loop (s := { s with fs := fs }) hp (hloop.trans hrp), ?_, ?_⟩
  · rw [finishRow_rp, finishRow_rp]
  · rw [finishRow_flags, finishRow_flags]

end

/-! ## Reconstruction undoes the forward filter (R117) -/

section
variable {orig : Memory} {ftype : Nat → Byte} {s : State}

/-- The bytes reconstructed from a filtered row are the original's. Each has its neighbours before it, and they are the
original's already, so the predictor that the filter subtracted is the one that is added back. -/
theorem read_eq_orig_of_filtered {predict : Predictor} {rp : Memory} (h : RowReady s)
    (horig : Memory.dense orig (s.hdr.height.toNat * s.geo.stride))
    (hraw : ∀ x, x < s.geo.stride → rawAt s x = filterByte predict s orig x)
    (hbefore : ∀ a, a < s.y.toNat * s.geo.stride → Memory.read rp a = Memory.read orig a)
    (hrow : ∀ x, x < s.geo.stride → Memory.read rp (s.y.toNat * s.geo.stride + x) =
      some (rawAt s x + predict (leftAt s rp x) (aboveAt s rp x) (upperLeftAt s rp x)))
    (a : Nat) (ha : a < (s.y.toNat + 1) * s.geo.stride) : Memory.read rp a = Memory.read orig a := by
  induction a using Nat.strong_induction_on with
  | _ a ih =>
    rcases Nat.lt_or_ge a (s.y.toNat * s.geo.stride) with hlt | hge
    · exact hbefore a hlt
    · obtain ⟨x, rfl⟩ := Nat.exists_eq_add_of_le hge
      have hx : x < s.geo.stride := by rw [Nat.succ_mul] at ha; omega
      have hin : s.y.toNat * s.geo.stride + x < s.hdr.height.toNat * s.geo.stride :=
        ha.trans_le (Nat.mul_le_mul_right _ h.2.1)
      obtain ⟨hleft, habove, hupperLeft⟩ := neighbours_congr h hx fun a' ha' => ih a' ha' (ha'.trans ha)
      rw [hrow x hx, read_eq_byteAt horig hin, hraw x hx, filterByte, hleft, habove, hupperLeft, BitVec.sub_add_cancel]

/-- Row `y` of FS is row `y` of the original filtered with the type `ftype y` of 0 to 4, for every row of the image. -/
structure FilteredImage (orig : Memory) (ftype : Nat → Byte) (s : State) : Prop where
  ftype_le : ∀ y, (ftype y).toNat ≤ 4
  orig_dense : Memory.dense orig (s.hdr.height.toNat * s.geo.stride)
  read_ftype : ∀ y, y < s.hdr.height.toNat → Memory.read s.fs (y * (s.geo.stride + 1)) = some (ftype y)
  raw_eq : ∀ y x, y < s.hdr.height.toNat → x < s.geo.stride →
    rawAt { s with y := BitVec.ofNat 32 y } x =
      filterByte (predictorOf (ftype y)) { s with y := BitVec.ofNat 32 y } orig x

/-- Reconstruction under way, the host only waiting: the rows before Y are the original's. -/
structure Restoring (orig : Memory) (ftype : Nat → Byte) (s : State) : Prop where
  host : s.env.host = []
  ready : RowReady s
  image : FilteredImage orig ftype s
  before : ∀ a, a < s.y.toNat * s.geo.stride → Memory.read s.rp a = Memory.read orig a

theorem popMove_of_host_nil (h : s.env.host = []) : popMove s = s := by
  have henv : { s.env with host := s.env.host.tail } = s.env := by rw [h, List.tail_nil, ← h]
  rw [popMove, henv]

theorem FilteredImage.raw_eq_at_y (h : FilteredImage orig ftype s) (hy : s.y.toNat < s.hdr.height.toNat) {x : Nat}
    (hx : x < s.geo.stride) : rawAt s x = filterByte (predictorOf (ftype s.y.toNat)) s orig x := by
  have hraw := h.raw_eq s.y.toNat x hy hx
  rwa [BitVec.ofNat_toNat, BitVec.setWidth_eq] at hraw

/-- A step reconstructs the row in hand with the predictor of its own filter type. -/
theorem Restoring.step_outcome (h : Restoring orig ftype s) :
    RowOutcome s s.flags.unkFilt
      (fun rp x => rawAt s x +
        predictorOf (ftype s.y.toNat) (leftAt s rp x) (aboveAt s rp x) (upperLeftAt s rp x)) (step s) := by
  obtain ⟨hp, hy, -⟩ := h.ready
  have hstep : step s = rowStep (predictorOf (ftype s.y.toNat)) s := by
    rw [step_of_blockMoves (Or.inl (by rw [h.host]; rfl)), popMove_of_host_nil h.host,
      blockAction_row hp (h.image.read_ftype _ hy) (decode_row_cons _ _), Action.outcome_run,
      exec_rowInstr (h.image.ftype_le _)]
  rw [hstep]
  exact rowStep_spec _ s h.ready

/-- One row on: RP is the original's up to the row's end, and the block is in DONE after the last row, else at the next. -/
theorem Restoring.goes_on (h : Restoring orig ftype s) :
    ∃ t, step s = .next t ∧ t.y.toNat = s.y.toNat + 1 ∧ t.hdr = s.hdr ∧ t.geo = s.geo ∧
      (∀ a, a < (s.y.toNat + 1) * s.geo.stride → Memory.read t.rp a = Memory.read orig a) ∧
      (s.y.toNat + 1 = s.hdr.height.toNat → t.phase = .done) ∧
      (s.y.toNat + 1 ≠ s.hdr.height.toNat → Restoring orig ftype t) := by
  obtain ⟨-, hy, hbpp, hfsDense, -⟩ := id h.ready
  have hsucc := y_succ_toNat hy
  have hlast : s.y + 1#32 = s.hdr.height ↔ s.y.toNat + 1 = s.hdr.height.toNat := by
    rw [BitVec.toNat_eq, hsucc]
  obtain ⟨rp, fs, hstep, hfs, hdense, hkept, hrow⟩ := h.step_outcome
  have hrestored := read_eq_orig_of_filtered h.ready h.image.orig_dense (fun x hx => h.image.raw_eq_at_y hy hx)
    (fun a ha => (hkept a ha).trans (h.before a ha)) hrow
  refine ⟨_, hstep, hsucc, rfl, rfl, hrestored, fun hdone => if_pos (hlast.2 hdone), fun hne => ?_⟩
  have hmore : s.y + 1#32 ≠ s.hdr.height := mt hlast.1 hne
  have hnext : (s.y + 1#32).toNat < s.hdr.height.toNat := by omega
  obtain rfl := hfs hmore
  rw [← hsucc] at hdense hrestored
  exact ⟨h.host, ⟨if_neg hmore, hnext, hbpp, hfsDense, hdense⟩,
    ⟨h.image.ftype_le, h.image.orig_dense, h.image.read_ftype, h.image.raw_eq⟩, hrestored⟩

/-- The rows still to do, `k` of them, end in DONE with the original in RP. -/
theorem Restoring.run_ends {k : Nat} (h : Restoring orig ftype s) (hk : s.y.toNat + k = s.hdr.height.toNat) :
    ∃ t, Host.Core.run core k s = .next t ∧ t.phase = .done ∧
      ∀ a, a < s.hdr.height.toNat * s.geo.stride → Memory.read t.rp a = Memory.read orig a := by
  induction k generalizing s with
  | zero => exact absurd h.ready.2.1 (Nat.not_lt.2 hk.ge)
  | succ k ih =>
    obtain ⟨u, hstep, hy, hhdr, hgeo, hrestored, hdone, hmore⟩ := h.goes_on
    rw [run_succ hstep]
    by_cases hlast : s.y.toNat + 1 = s.hdr.height.toNat
    · obtain rfl : k = 0 := by omega
      rw [hlast] at hrestored
      exact ⟨u, rfl, hdone hlast, hrestored⟩
    · rw [← hhdr, ← hgeo]
      exact ih (hmore hlast) (by rw [hhdr]; omega)

end

/-! ## O40 to O50 and O59 -/

/-- Settles O50, by induction on the rows still to do: `Restoring` holds in row 0 and each step keeps it. -/
theorem reconstructionInvertsFiltering : Obligations.ReconstructionInvertsFiltering := by
  unfold Obligations.ReconstructionInvertsFiltering
  intro s orig ftype hhost hready hy hle horig htypes hraw
  have hy0 : s.y.toNat = 0 := by rw [hy]; rfl
  have hstart : Restoring orig ftype s :=
    ⟨hhost, hready, ⟨hle, horig, htypes, hraw⟩, fun a ha => by rw [hy0, Nat.zero_mul] at ha; omega⟩
  exact hstart.run_ends (by rw [hy0, Nat.zero_add])

/-- Settles O40: the predictor of NONE is 0. -/
theorem noneCopiesTheRow : Obligations.NoneCopiesTheRow := by
  unfold Obligations.NoneCopiesTheRow
  intro s h
  exact (rowStep_spec predictNone s h).congr_recon fun _ _ => BitVec.add_zero _

/-- Settles O41: the predictor of SUB is left. -/
theorem subAddsLeft : Obligations.SubAddsLeft := by
  unfold Obligations.SubAddsLeft
  intro s h
  exact rowStep_spec predictSub s h

/-- Settles O42: the predictor of UP is above. -/
theorem upAddsAbove : Obligations.UpAddsAbove := by
  unfold Obligations.UpAddsAbove
  intro s h
  exact rowStep_spec predictUp s h

/-- Settles O43: the predictor of AVERAGE is half the sum, taken in naturals. -/
theorem averageAddsTheHalfSum : Obligations.AverageAddsTheHalfSum := by
  unfold Obligations.AverageAddsTheHalfSum
  intro s h
  exact rowStep_spec predictAverage s h

/-- Settles O44: the predictor of PAETH is the function of R112. -/
theorem paethAddsThePredictor : Obligations.PaethAddsThePredictor := by
  unfold Obligations.PaethAddsThePredictor
  intro s h
  exact rowStep_spec predictPaeth s h

/-- Settles O45: the row step of UNKNOWN runs with UNKFILT set, and its predictor is 0. -/
theorem unknownCopiesAndFlags : Obligations.UnknownCopiesAndFlags := by
  unfold Obligations.UnknownCopiesAndFlags
  intro s f h
  have hmarked : RowOutcome (markUnknownFilter s) true (fun _ x => rawAt s x) (exec (.unknown f) s) :=
    (rowStep_spec predictUnknown (markUnknownFilter s) h).congr_recon fun _ _ => BitVec.add_zero _
  exact hmarked

/-- Settles O46, by the three arguments the predictor can be. -/
theorem paethPicksTheClosest : Obligations.PaethPicksTheClosest := by
  unfold Obligations.PaethPicksTheClosest
  intro a b c dist r
  have hcases : (r = a ∧ dist a ≤ dist b ∧ dist a ≤ dist c) ∨ (r = b ∧ dist b < dist a ∧ dist b ≤ dist c) ∨
      (r = c ∧ dist c < dist a ∧ dist c < dist b) := predictPaeth_cases a b c
  have hvalues : predictPaeth 0#8 0#8 0#8 = 0#8 ∧ predictPaeth 10#8 20#8 15#8 = 15#8 ∧
      predictPaeth 3#8 0#8 1#8 = 3#8 ∧ predictPaeth 0#8 3#8 1#8 = 3#8 ∧ predictPaeth 200#8 100#8 10#8 = 200#8 := by decide
  clear_value r
  rcases hcases with ⟨rfl, hb, hc⟩ | ⟨rfl, ha, hc⟩ | ⟨rfl, ha, hb⟩
  · exact ⟨Or.inl rfl, le_rfl, hb, hc, fun _ _ => rfl, fun h => absurd h hb.not_gt, fun h => absurd h hc.not_gt, hvalues⟩
  · exact ⟨Or.inr (Or.inl rfl), ha.le, le_rfl, hc, fun h => absurd h ha.not_ge, fun _ _ => rfl,
      fun _ h => absurd h hc.not_gt, hvalues⟩
  · exact ⟨Or.inr (Or.inr rfl), ha.le, hb.le, le_rfl, fun _ h => absurd h ha.not_ge, fun _ h => absurd h hb.not_ge,
      fun _ _ => rfl, hvalues⟩

/-- Settles O47: half the exact sum fits a byte, so the predictor holds it whole. -/
theorem averageIsExact : Obligations.AverageIsExact := by
  unfold Obligations.AverageIsExact
  refine ⟨fun l a u => ?_, fun _ => ⟨rfl, show (150#8 : Byte) ≠ 22#8 by decide⟩⟩
  have hl := l.isLt
  have ha := a.isLt
  rw [predictAverage_toNat]
  exact ⟨rfl, (Nat.shiftRight_one _).symm, by omega, by omega⟩

/-- Settles O48: in row 0 the two predictors of each pair agree where above and upperLeft are 0. -/
theorem edgeEquivalences : Obligations.EdgeEquivalences := by
  unfold Obligations.EdgeEquivalences
  refine ⟨fun s hy => ⟨?up, ?paeth⟩, fun l => ?left, fun a => ⟨rfl, predictPaeth_above_only a, ?above⟩, predictorOf_zero⟩
  case up => exact rowStep_congr_of_row_zero (p := predictNone) (q := predictUp) hy fun _ => rfl
  case paeth => exact rowStep_congr_of_row_zero (p := predictSub) (q := predictPaeth) hy predictPaeth_left_only
  case left => exact predictAverage_toNat l 0#8 0#8
  case above => rw [predictAverage_toNat, BitVec.toNat_ofNat, Nat.zero_mod, Nat.zero_add]

/-- Settles O49: the row step reads of FS only its own row, UNKNOWN's too. -/
theorem rowsAreCausal : Obligations.RowsAreCausal := by
  unfold Obligations.RowsAreCausal
  intro i s t fs hi _ _ hfs hs
  obtain ⟨predict, hexec | hexec⟩ := exec_row hi
  · rw [hexec] at hs ⊢
    exact rowStep_withFs hfs hs
  · rw [hexec] at hs ⊢
    exact rowStep_withFs (s := markUnknownFilter s) hfs hs

/-- Settles O59: the invariant gives RP's extent in DONE, and the geometry is the exact products (R96). -/
theorem outputLength : Obligations.OutputLength := by
  unfold Obligations.OutputLength
  rintro s ⟨-, -, -, -, -, hphase⟩ hp
  simp only [PhaseOk, hp] at hphase
  obtain ⟨⟨-, -, -, -, -, -, hstride, hexp, -⟩, hy, hrp⟩ := hphase
  have hlen : s.rp.length = s.geo.expLen - s.hdr.height.toNat := by
    rw [Memory.dense_length hrp, hexp, Nat.mul_succ, Nat.add_sub_cancel]
  have hbytes : s.hdr.width.toNat * s.hdr.height.toNat * s.geo.bpp.toNat = s.hdr.height.toNat * s.geo.stride := by
    rw [hstride, Nat.mul_left_comm, Nat.mul_assoc]
  exact ⟨hbytes ▸ hrp, hlen, hy⟩

end Sys2Proof.Machine

/-! PROOF. The output and the host's read of RP (44_pixel_assembler.md R118, 70_reset_and_hazards.md R144): both are there in
DONE and in no other phase. -/

namespace Sys2Proof.Machine

section
variable {s : State}

/-! ## The host's read of RP (R39, R144) -/

theorem hostReadRp_of_done (h : s.phase = .done) (a : Nat) : hostReadRp s a = Memory.read s.rp a := if_pos h

theorem hostReadRp_of_ne_done (h : s.phase ≠ .done) (a : Nat) : hostReadRp s a = none := if_neg h

/-! ## The output (R118) -/

theorem output_of_done (h : s.phase = .done) :
    output s =
      some { width := s.hdr.width, height := s.hdr.height, bpp := s.geo.bpp, rp := s.rp, flags := s.flags } := if_pos h

theorem output_of_ne_done (h : s.phase ≠ .done) : output s = none := if_neg h

end

/-- Settles O20: the output and the read of RP are each guarded by PHASE alone. -/
theorem outputOnlyWhenDone : Obligations.OutputOnlyWhenDone := by
  unfold Obligations.OutputOnlyWhenDone
  exact fun _ => ⟨fun h => ⟨output_of_ne_done h, hostReadRp_of_ne_done h⟩,
    fun h => ⟨hostReadRp_of_done h, output_of_done h⟩⟩

end Sys2Proof.Machine

/-! PROOF. The typed errors (60_exceptions.md R121 to R133): their codes, what `raise` records, and the ways out of FAULT. -/

namespace Sys2Proof.Machine

section
variable {s t : State}

/-! ## The ways out of FAULT (R133) -/

/-- What a host that moves can do out of BUSY: a write without effect or a bind keeps PHASE; else RESET, or START. -/
theorem hostAction_next_of_not_busy {m : HostMove} (hb : s.phase.busy = false) (hm : m ≠ .wait)
    (hs : (hostAction m s).outcome = .next t) :
    t.phase = s.phase ∨
      (t = resetBlock s ∧ (m = .hardReset ∨ ∃ value, m = .write 0 value ∧ value.getLsbD 1 = true)) ∨
      (t = startDecode s ∧ ∃ value, m = .write 0 value ∧ value.getLsbD 0 = true ∧ value.getLsbD 1 = false) := by
  rcases hostAction_next hm hs with ⟨rfl, -⟩ | hreset | ⟨hstart, value, hw, h1, h0⟩ | ⟨-, bytes, -, rfl⟩
  · exact Or.inl rfl
  · exact Or.inr (Or.inl hreset)
  · rcases execSStart_next hstart with ⟨hbusy, -⟩ | ⟨-, -, ht⟩
    · exact absurd hbusy (ne_true_of_eq_false hb)
    · exact Or.inr (Or.inr ⟨ht, value, hw, h0, h1⟩)
  · exact Or.inl rfl

end

/-- Settles O10: where the host does not move the block rests, and its moves out of BUSY are those of
`hostAction_next_of_not_busy`. -/
theorem faultIsLeftOnlyByResetOrStart : Obligations.FaultIsLeftOnlyByResetOrStart := by
  unfold Obligations.FaultIsLeftOnlyByResetOrStart
  intro s t hp hs
  have hb : (popMove s).phase.busy = false := by rw [popMove_phase, hp]; rfl
  rcases blockMoves_or_hostMove s with hblock | ⟨m, hm, hhead⟩
  · rw [step_of_blockMoves hblock, blockAction_rest hb] at hs
    cases hs
    exact Or.inl hp
  · rw [step_of_hostMove hhead] at hs
    rw [hhead]
    rcases hostAction_next_of_not_busy hb hm hs with
      hphase | ⟨rfl, rfl | ⟨value, rfl, h1⟩⟩ | ⟨rfl, value, rfl, hbits⟩
    · exact Or.inl (hphase.trans hp)
    · exact Or.inr (Or.inl ⟨rfl, Or.inl rfl⟩)
    · exact Or.inr (Or.inl ⟨rfl, Or.inr ⟨value, rfl, h1⟩⟩)
    · exact Or.inr (Or.inr ⟨rfl, value, rfl, hbits⟩)

/-- Settles O23: the buffers of the resulting state are released, and the rest is what `Faulted` writes. -/
theorem raiseRecordsTheError : Obligations.RaiseRecordsTheError := by
  unfold Obligations.RaiseRecordsTheError
  exact fun _ _ _ => ⟨Memory.released, Memory.released, Memory.released, rfl⟩

/-- Settles O24: each code of the model is the literal of the table. -/
theorem errorCodes : Obligations.ErrorCodes := by
  unfold Obligations.ErrorCodes
  rfl

end Sys2Proof.Machine

/-! PROOF. Reset and START out of order (70_reset_and_hazards.md R137, R138, R141, R145): the two resets are one, and S_START
answers in the cases where it begins no decode. -/

namespace Sys2Proof.Machine

/-! ## S_START that begins no decode (R141, R145) -/

/-- S_START out of BUSY with no stream bound: the model's reading of R141 (log entry 7). -/
theorem execSStart_unbound {s : State} (hb : s.phase.busy = false) (hbound : s.env.bound = false) :
    exec .sStart s = .refused .startWithoutStream := by
  show execSStart s = _
  rw [execSStart, if_neg (ne_true_of_eq_false hb), if_pos hbound]

/-- Settles O17: `execSStart_busy` while BUSY, `execSStart_unbound` out of it. -/
theorem startWhileBusyOrUnbound : Obligations.StartWhileBusyOrUnbound := by
  unfold Obligations.StartWhileBusyOrUnbound
  exact fun _ => ⟨execSStart_busy, execSStart_unbound⟩

/-! ## The two resets (R137, R138) -/

/-- A hard reset resets the block in any phase (R137). -/
theorem step_hardReset {s : State} (h : s.env.host.head? = some .hardReset) :
    step s = .next (resetBlock (popMove s)) := by
  rw [step_of_hostMove h, hostAction, Action.outcome_become]

/-- RESET wins over every other bit of CTRL (R31). -/
theorem ctrlAction_reset {value : Word32} (h1 : value.getLsbD 1 = true) (s : State) :
    ctrlAction value s = .become (resetBlock s) := by
  rw [ctrlAction, if_pos h1]

/-- A write of CTRL with RESET resets the block in any phase (R138). -/
theorem step_softReset {s : State} {value : Word32} (h1 : value.getLsbD 1 = true)
    (h : s.env.host.head? = some (.write 0 value)) : step s = .next (resetBlock (popMove s)) := by
  rw [step_write_ctrl h, ctrlAction_reset h1, Action.outcome_become]

/-- Settles O19: both resets are `resetBlock` of the state after the host's move, which by `resetBlock_eq` is the reset
state beside that state's environment. -/
theorem hardAndSoftResetAgree : Obligations.HardAndSoftResetAgree := by
  unfold Obligations.HardAndSoftResetAgree
  intro s
  rw [← resetBlock_eq]
  exact ⟨step_hardReset, fun _ => step_softReset⟩

end Sys2Proof.Machine
